-- ==== Sys2Proof/Word.lean ====
section
/-! DEFINITION. The word types of the block (spec/00_scope.md rule R10, spec/30_encoding.md rule R74). -/

namespace Sys2Proof

/-- `u8`: the width of each memory-mapped register (R7, R10). -/
abbrev Byte := BitVec 8

/-- A 16-bit byte address of the memory subsystem's address space (R50). -/
abbrev Addr := BitVec 16

/-- `s_W` with `BUDGET_W = 32` (R6, decision D7; log entry 2): read as an integer through `BitVec.toInt`,
two's complement (R10, R29). -/
abbrev Budget := BitVec 32

/-- A command word of format `CMD`: `4 + BUDGET_W = 36` bits (R74). -/
abbrev CmdWord := BitVec 36

end Sys2Proof
end

