-- ==== Sys2Proof/Config.lean ====
section
/-! DEFINITION. The implementation parameters of spec/00_scope.md rule R6, and their values at reset.

R6 calls an OPEN parameter "an argument of the model". The host fixes the types of `exec` and `step`, which take the
state and nothing else, so the argument is carried in the state as a record that no operation writes (R35; log entry 1).
`Config.chosen` has no body: nothing in Lean can tell which admissible values the machine has. -/

namespace Sys2Proof

/-- `LY_WRITE_FN`, a total function `u8 × u8 → u8` of the old LY and the written value (R6, R158), as plain data: the
function that stores the written value, but for the listed exceptions `(old, written, stored)`. The domain is finite, so
every total function is one of these (`Sys2Proof.Laws.lyStored_tableOf`; log entry 4). -/
structure LyWriteFn where
  exceptions : List (Byte × Byte × Byte)
deriving DecidableEq, Repr, Inhabited

/-- The parameters of R6 that the rules read: two thresholds, the per-scanline total, the four register addresses, the
H-Blank edge tag and `LY_WRITE_FN`. A threshold is compared as the integer it is (R10). -/
structure Params where
  tTransfer : Int
  tOam : Int
  tLine : Int
  addrLcdc : Addr
  addrStat : Addr
  addrLy : Addr
  addrLyc : Addr
  hblankEdgeTag : BitVec 2
  lyWrite : LyWriteFn
deriving DecidableEq, Repr

/-- The constraints of R6 on the parameters, with `BUDGET_W = 32`. -/
abbrev Params.Ok (c : Params) : Prop :=
  0 < c.tTransfer ∧ c.tTransfer < c.tOam ∧ c.tOam ≤ c.tLine ∧ c.tLine ≤ 2 ^ 31 - 1 ∧
  [c.addrLcdc, c.addrStat, c.addrLy, c.addrLyc].Nodup ∧
  (c.hblankEdgeTag = 0#2 ∨ c.hblankEdgeTag = 2#2)

/-- A choice of the parameters together with the proof that R6 admits it. The default fields only show that the type is
inhabited; no proof can see them through `Config.chosen`. -/
structure Config.Choice where
  params : Params := ⟨1, 2, 2, 0#16, 1#16, 2#16, 3#16, 0#2, ⟨[]⟩⟩
  ok : params.Ok := by decide
deriving Inhabited

/-- The OPEN parameters (R6, decisions D9, D10, D15): any admissible choice, and no one can know which. -/
opaque Config.chosen : Config.Choice

/-- The parameters at reset: the OPEN ones are free, and `HBLANK_EDGE_TAG` has the value `0` that R6 gives it (decision
D4; log entry 3). -/
def Config.params : Params := { Config.chosen.params with hblankEdgeTag := 0#2 }

/-- The register group that `INIT` gives at power-on (R6, R34). -/
structure RegGroup where
  lcdc : Byte
  stat : Byte
  ly : Byte
  lyc : Byte
  budget : Budget
deriving DecidableEq, Repr

/-- DESIGN CHOICE (log entry 5, unsafe): the spec leaves every power-on value unspecified (R34), and the host's one
`State.reset` needs one. `State.powerOn` takes any other. -/
def Config.init : RegGroup := ⟨0#8, 0#8, 0#8, 0#8, 0#32⟩

end Sys2Proof
end

