-- ==== Sys2Proof/Syntax.lean ====
section
/-! DEFINITION. The commands of the block and its environment (spec/30_encoding.md rule R76), one constructor per row of
spec/opcode_table.json, and the lines of the assembly language (rules R80, R81). -/

namespace Sys2Proof

/-- The four memory-mapped registers, as `RD` names them (R75, R159). -/
inductive Reg where
  | lcdc
  | stat
  | ly
  | lyc
deriving DecidableEq, Repr

/-- A decoded command (R75, R76). `imm8` is a `u8`; `n` is an unsigned integer, whose range `WellFormed` checks. -/
inductive Instr where
  | update
  | qen
  | reload
  | advance (n : Nat)
  | setly (imm8 : Byte)
  | wlcdc (imm8 : Byte)
  | wlyc (imm8 : Byte)
  | wstat (imm8 : Byte)
  | wly (imm8 : Byte)
  | rd (sel : Reg)
deriving DecidableEq, Repr

/-- A line of assembly as it is written: the ten commands of R80 and the four pseudo-instructions of R81, with the
numbers the line gives, of whatever size. -/
inductive AsmLine where
  | update
  | qen
  | reload
  | advance (n : Nat)
  | setly (imm8 : Nat)
  | wlcdc (imm8 : Nat)
  | wlyc (imm8 : Nat)
  | wstat (imm8 : Nat)
  | wly (imm8 : Nat)
  | rd (sel : Reg)
  | tick (n : Nat)
  | lcdon (imm8 : Nat)
  | lcdoff (imm8 : Nat)
  | newline (imm8 : Nat)
deriving DecidableEq, Repr

/-- What the assembler reads from one line of text (R80): nothing (blank, or a comment alone), a line, or a text that it
refuses. -/
inductive SourceLine where
  | blank
  | line (l : AsmLine)
  | refused
deriving DecidableEq, Repr

end Sys2Proof
end

