-- ==== Sys2Proof/WellFormed.lean ====
section
/-! DEFINITION. Which commands and assembly lines are well formed (spec/30_encoding.md rules R75, R79, R80, R81). -/

namespace Sys2Proof

/-- The operand ranges of R75: `n` is `0 .. 2^BUDGET_W - 1`; a `u8` and a register name cannot be out of range. -/
def Instr.wf : Instr → Bool
  | .update => true
  | .qen => true
  | .reload => true
  | .advance n => decide (n < 2 ^ 32)
  | .setly _ => true
  | .wlcdc _ => true
  | .wlyc _ => true
  | .wstat _ => true
  | .wly _ => true
  | .rd _ => true

/-- What the assembler checks of a line (R80: `imm8` in `0..255`, `n` in `0 .. 2^BUDGET_W - 1`; R81: `imm8[7]` must be 1
for `LCDON` and 0 for `LCDOFF`); it refuses the line otherwise. -/
def AsmLine.wf : AsmLine → Bool
  | .update => true
  | .qen => true
  | .reload => true
  | .advance n => decide (n < 2 ^ 32)
  | .setly v => decide (v ≤ 255)
  | .wlcdc v => decide (v ≤ 255)
  | .wlyc v => decide (v ≤ 255)
  | .wstat v => decide (v ≤ 255)
  | .wly v => decide (v ≤ 255)
  | .rd _ => true
  | .tick n => decide (n < 2 ^ 32)
  | .lcdon v => decide (v ≤ 255) && v.testBit 7
  | .lcdoff v => decide (v ≤ 255) && !v.testBit 7
  | .newline v => decide (v ≤ 255)

end Sys2Proof
end

