-- ==== Sys2Proof/Decode.lean ====
section
/-! DEFINITION. The command encoding (spec/30_encoding.md rules R74 to R79): a decoder that is total on 36-bit words, and
the encoder. -/

namespace Sys2Proof

/-- What a command word decodes to (R77, R78): a command, or a reserved operation code, named. -/
inductive Decoded where
  | instr (i : Instr)
  | reserved (op : BitVec 4)
deriving DecidableEq, Repr

/-- Bits 35:32 of a word, the operation code (R74). -/
def opField (w : CmdWord) : BitVec 4 := w.extractLsb' 32 4

/-- Bits 31:0 of a word, the operand bus `D` (R74). -/
def operandBus (w : CmdWord) : BitVec 32 := w.extractLsb' 0 32

/-- `imm8 = D[7:0]` (R75). -/
def imm8Operand (d : BitVec 32) : Byte := d.extractLsb' 0 8

/-- `n = D[31:0]`, an unsigned integer (R75). -/
def nOperand (d : BitVec 32) : Nat := d.toNat

/-- `sel = D[1:0]`: 00 = LCDC, 01 = STAT, 10 = LY, 11 = LYC (R75). -/
def selOperand (d : BitVec 32) : Reg :=
  let sel := d.extractLsb' 0 2
  if sel = 0b00#2 then .lcdc
  else if sel = 0b01#2 then .stat
  else if sel = 0b10#2 then .ly
  else .lyc

/-- The opcode map (R76): the row that the operation code selects, with its operand of the operand bus `d`. Codes 0000
and 1011 to 1111 are reserved (R78). -/
def decodeFields (op : BitVec 4) (d : BitVec 32) : Decoded :=
  match op.toNat with
  | 0b0001 => .instr .update
  | 0b0010 => .instr .qen
  | 0b0011 => .instr .reload
  | 0b0100 => .instr (.advance (nOperand d))
  | 0b0101 => .instr (.setly (imm8Operand d))
  | 0b0110 => .instr (.wlcdc (imm8Operand d))
  | 0b0111 => .instr (.wlyc (imm8Operand d))
  | 0b1000 => .instr (.wstat (imm8Operand d))
  | 0b1001 => .instr (.wly (imm8Operand d))
  | 0b1010 => .instr (.rd (selOperand d))
  | _ => .reserved op

/-- Decoding is total on command words and looks at `op` alone to select the operation (R77). -/
def decode (w : CmdWord) : Decoded := decodeFields (opField w) (operandBus w)

/-- The word with operation code `op` and operand bus `d` (R74). -/
def commandWord (op : BitVec 4) (d : BitVec 32) : CmdWord := op ++ d

/-- The operation code of each command (R76). -/
def opcode : Instr → BitVec 4
  | .update => 0b0001#4
  | .qen => 0b0010#4
  | .reload => 0b0011#4
  | .advance _ => 0b0100#4
  | .setly _ => 0b0101#4
  | .wlcdc _ => 0b0110#4
  | .wlyc _ => 0b0111#4
  | .wstat _ => 0b1000#4
  | .wly _ => 0b1001#4
  | .rd _ => 0b1010#4

/-- The code of a register name in `D[1:0]` (R75). -/
def selCode : Reg → BitVec 2
  | .lcdc => 0b00#2
  | .stat => 0b01#2
  | .ly => 0b10#2
  | .lyc => 0b11#2

/-- The operand bus of each command; every ignored bit is 0, as the assembler sets it (R80). -/
def operandBits : Instr → BitVec 32
  | .update => 0#32
  | .qen => 0#32
  | .reload => 0#32
  | .advance n => BitVec.ofNat 32 n
  | .setly v => v.setWidth 32
  | .wlcdc v => v.setWidth 32
  | .wlyc v => v.setWidth 32
  | .wstat v => v.setWidth 32
  | .wly v => v.setWidth 32
  | .rd r => (selCode r).setWidth 32

/-- The word of a command (R74 to R76). -/
def encode (i : Instr) : CmdWord := commandWord (opcode i) (operandBits i)

/-- The number that `nbits` bits of a table row give, the bits above them zero. -/
def tableNumber (nbits w : Nat) : Nat := w % 2 ^ nbits

/-- The command that the decoder reads from a table row's word; none for a reserved code, and none for a number that has
a bit above bit 35, since a command word has 36 bits (R74). -/
def decodeTableWord (nbits w : Nat) : Option Instr :=
  if tableNumber nbits w < 2 ^ 36 then
    match decode (BitVec.ofNat 36 (tableNumber nbits w)) with
    | .instr i => some i
    | .reserved _ => none
  else none

end Sys2Proof
end

