-- ==== Sys2Proof/Machine/State.lean ====
section
/-! DEFINITION. The state record of spec/10_state.md rule R22, the model's own three fields beside it, and power-on
(rules R34, R210). -/

namespace Sys2Proof.Machine

/-- The four display modes (R24, R70). -/
inductive Mode where
  | hblank
  | vblank
  | oamSearch
  | transfer
deriving DecidableEq, Repr

/-- Which gate of the block made a request (R13, R22): the mode edge or the coincidence. -/
inductive ReqSrc where
  | mode
  | lyc
deriving DecidableEq, Repr

/-- One event of the request log (R22, R32). -/
structure Request where
  seq : Nat
  src : ReqSrc
deriving DecidableEq, Repr

/-- What a command returns (R84): `QEN` one bit, `RD` one byte. -/
inductive Ret where
  | bit (b : Bool)
  | byte (v : Byte)
deriving DecidableEq, Repr

/-- The targets of the raw write path: the block writes STAT and LY, never LCDC or LYC (R51, R53). -/
inductive RawReg where
  | stat
  | ly
deriving DecidableEq, Repr

/-- The state of the block. The first seven fields are R22's record. The last three are the model's own: the parameters
(R6's arguments of the model, which no operation writes, R35; log entry 1), the commands the environment has issued and
the block has not yet performed, first issued first (R20, R60; log entry 6), and what the last command returned (R84;
log entry 7). -/
structure State where
  lcdc : Byte
  stat : Byte
  ly : Byte
  lyc : Byte
  budget : Budget
  irqlog : List Request
  refused : Bool
  cfg : Params
  pending : List CmdWord
  ret : Option Ret
deriving DecidableEq, Repr

/-- The block raises no exception and no operation of it can fail (R180): there is no fault. -/
inductive Fault where
deriving DecidableEq, Repr

/-- The host's refusal of an instruction without a meaning. A RESERVED command is no such thing here: R83 gives it a next
state, in which the sticky mark is set (`State.refuse`). -/
inductive Refusal where
  /-- Raised by no arm of `exec`: every command has its meaning. Safe. -/
  | notModelled (mnemonic : String)
deriving DecidableEq, Repr

/-- Power-on (R34, R210): the parameters are fixed, the registers hold what `INIT` gives, the request log is empty, the
mark is clear, and no command has been issued. -/
def State.powerOn (c : Params) (init : RegGroup) : State where
  lcdc := init.lcdc
  stat := init.stat
  ly := init.ly
  lyc := init.lyc
  budget := init.budget
  irqlog := []
  refused := false
  cfg := c
  pending := []
  ret := none

/-- Power-on with the machine's parameters and the `INIT` of log entry 5. -/
def State.reset : State := State.powerOn Config.params Config.init

end Sys2Proof.Machine
end

