-- ==== Sys2Proof/Machine/Flags.lean ====
section
/-! DEFINITION. The fields of the status byte and of LCD Control: mode, coincidence flag, interrupt enables, display
enable (spec/10_state.md rules R23 to R25, R30; spec/30_encoding.md rules R70 to R72). -/

namespace Sys2Proof.Machine

/-- `bit(v, n)` of R10, bit 0 the least significant (R9). -/
def bit (v : Byte) (n : Nat) : Bool := v.getLsbD n

/-- `setbit(v, n)` of R10. -/
def setbit (v : Byte) (n : Nat) : Byte := v ||| (1#8 <<< n)

/-- `clrbit(v, n)` of R10. -/
def clrbit (v : Byte) (n : Nat) : Byte := v &&& ~~~(1#8 <<< n)

/-- The 2-bit code of a mode (R70). -/
def modeCode : Mode → BitVec 2
  | .hblank => 0b00#2
  | .vblank => 0b01#2
  | .oamSearch => 0b10#2
  | .transfer => 0b11#2

/-- `STAT[1:0]` (R24). -/
def modeField (v : Byte) : BitVec 2 := v.extractLsb' 0 2

/-- The enable bit of a mode's interrupt; Transfer has none (R71). -/
def ieBit : Mode → Option Nat
  | .hblank => some 3
  | .vblank => some 4
  | .oamSearch => some 5
  | .transfer => none

/-- The value of a mode's enable bit in the status byte `v`; 0 for Transfer (R71, R117). -/
def modeEnable (v : Byte) (m : Mode) : Bool :=
  match ieBit m with
  | some n => bit v n
  | none => false

/-- Step 4 of UPDATE: the mode's code in bits 1:0, the others untouched (R120). -/
def withMode (v : Byte) (m : Mode) : Byte := (v &&& 0xFC#8) ||| (modeCode m).setWidth 8

/-- The coincidence flag, bit 2, set or cleared, the others untouched (R126). -/
def withCoincidence (v : Byte) (eq : Bool) : Byte := if eq then setbit v 2 else clrbit v 2

/-- `STAT[6]`, the coincidence enable (R71). -/
def lycEnable (v : Byte) : Bool := bit v 6

/-- The status byte that the memory subsystem stores on a dispatching write of `v` over `old`: bits 7:3 of the written
value, bits 2:0 kept (R157). -/
def storedStat (old v : Byte) : Byte := (v &&& 0xF8#8) ||| (old &&& 0x07#8)

/-- `lcd_en = LCDC[7]` (R72, R101). -/
def lcdEn (s : State) : Bool := bit s.lcdc 7

end Sys2Proof.Machine
end

