-- ==== Sys2Proof/Machine/Operands.lean ====
section
/-! DEFINITION. What an operand names or computes: the register map (spec/20_memory.md rule R51), the budget's arithmetic
(spec/42_environment.md rules R152, R153) and the value stored by a dispatching write of LY (rule R158). -/

namespace Sys2Proof.Machine

/-- The address of a register (R51, R159). -/
def addrOf (c : Params) : Reg → Addr
  | .lcdc => c.addrLcdc
  | .stat => c.addrStat
  | .ly => c.addrLy
  | .lyc => c.addrLyc

/-- The register at an address; none at every other address, which the block never accesses (R51). -/
def regAt (c : Params) (a : Addr) : Option Reg :=
  if a = c.addrLcdc then some .lcdc
  else if a = c.addrStat then some .stat
  else if a = c.addrLy then some .ly
  else if a = c.addrLyc then some .lyc
  else none

/-- `T_LINE` as a budget (R152). -/
def lineTotal (c : Params) : Budget := BitVec.ofInt 32 c.tLine

/-- The budget after `n` cycles: `sext(trunc(BUDGET - n))`, subtraction modulo `2^32` (R153). -/
def budgetAfter (b : Budget) (n : Nat) : Budget := BitVec.ofInt 32 (b.toInt - n)

/-- The first exception of a table for `(old, v)`, and `v` where it has none. -/
def storedByTable (old v : Byte) : List (Byte × Byte × Byte) → Byte
  | [] => v
  | (o, x, r) :: rest => if o = old ∧ x = v then r else storedByTable old v rest

/-- `LY_WRITE_FN(old, v)` (R158). -/
def lyStored (f : LyWriteFn) (old v : Byte) : Byte := storedByTable old v f.exceptions

end Sys2Proof.Machine
end

