-- ==== Sys2Proof/Machine/Ops.lean ====
section
/-! DEFINITION. The operations over the register group that the meanings share: the read and write paths of
spec/20_memory.md rules R52 to R55, the request primitive (R13, R32), the refusal of a reserved command (R83), and the
environment's command stream (R20, R60). The block takes no exception and returns from none (R186). -/

namespace Sys2Proof.Machine

/-- The byte a register holds (R52); reading changes nothing. -/
def State.readReg (s : State) : Reg → Byte
  | .lcdc => s.lcdc
  | .stat => s.stat
  | .ly => s.ly
  | .lyc => s.lyc

/-- A register set to a byte, nothing else changed. -/
def State.setReg (s : State) (r : Reg) (v : Byte) : State :=
  match r with
  | .lcdc => { s with lcdc := v }
  | .stat => { s with stat := v }
  | .ly => { s with ly := v }
  | .lyc => { s with lyc := v }

/-- The register a raw target names. -/
def rawTarget : RawReg → Reg
  | .stat => .stat
  | .ly => .ly

/-- `MemWrite`, the raw path: the byte is stored, no UPDATE starts and nothing is requested (R53). -/
def State.rawWrite (s : State) (r : RawReg) (v : Byte) : State := s.setReg (rawTarget r) v

/-- The budget set by register transfer (R56). -/
def State.setBudget (s : State) (b : Budget) : State := { s with budget := b }

/-- `MemRead(a, 1)` (R52): the byte of the register at `a`; none at an address that is no register's, where the memory
subsystem answers and the spec says nothing (R51). -/
def State.memRead (s : State) (a : Addr) : Option Byte := (regAt s.cfg a).map s.readReg

/-- `MemWrite(a, 1, v)` (R53), which the spec gives for the addresses of STAT and LY. -/
def State.memWriteRaw (s : State) (a : Addr) (v : Byte) : Option State :=
  match regAt s.cfg a with
  | some .stat => some (s.rawWrite .stat v)
  | some .ly => some (s.rawWrite .ly v)
  | some .lcdc => none
  | some .lyc => none
  | none => none

/-- `RequestStatusInterrupt(src)`: one event is appended to the request log (R13, R32). -/
def State.request (s : State) (src : ReqSrc) : State :=
  { s with irqlog := s.irqlog ++ [{ seq := s.irqlog.length, src := src }] }

/-- A request made under a condition. -/
def State.requestIf (s : State) (p : Bool) (src : ReqSrc) : State := if p then s.request src else s

/-- What the command returns (R84). -/
def State.returning (s : State) (r : Option Ret) : State := { s with ret := r }

/-- `refuse(reason)` (R83): every register and the request log keep their values, nothing is returned, and the sticky
mark is set. -/
def State.refuse (s : State) : State := { s with refused := true, ret := none }

/-- The environment issues a command: it joins the stream after those issued before it (R60). -/
def State.issue (s : State) (w : CmdWord) : State := { s with pending := s.pending ++ [w] }

/-- The next command of the stream, and the state without it; none where the environment has issued no further
command. -/
def State.nextCommand (s : State) : Option (CmdWord × State) :=
  match s.pending with
  | [] => none
  | w :: rest => some (w, { s with pending := rest })

/-- A command put before every other of the stream. -/
def State.issueFirst (s : State) (w : CmdWord) : State := { s with pending := w :: s.pending }

end Sys2Proof.Machine
end

