-- ==== Sys2Proof/Machine/Update.lean ====
section
/-! DEFINITION. UPDATE and the four sub-blocks it is made of (spec/41_update.md; spec/00_scope.md rule R2). -/

namespace Sys2Proof.Machine

/-- `VBLANK_LINE`, fixed by the source (R7). -/
def vblankLine : Byte := 144#8

/-- The mode-select multiplexer's mode, from LY and the budget alone (R115 to R119): LY compared unsigned, the budget
signed. -/
def muxMode (c : Params) (ly : Byte) (b : Budget) : Mode :=
  if vblankLine ≤ ly then .vblank
  else if c.tOam ≤ b.toInt then .oamSearch
  else if c.tTransfer ≤ b.toInt then .transfer
  else .hblank

/-- `MUX(ly, b, s)` (R119): the mode, and the value of its enable bit in the status byte. -/
def mux (c : Params) (ly : Byte) (b : Budget) (st : Byte) : Mode × Bool :=
  (muxMode c ly b, modeEnable st (muxMode c ly b))

/-- The tag that the gater compares with the previous mode: `HBLANK_EDGE_TAG` for H-Blank, the code for the others
(R121). -/
def edgeTag (c : Params) (m : Mode) : BitVec 2 :=
  match m with
  | .hblank => c.hblankEdgeTag
  | .vblank => modeCode .vblank
  | .oamSearch => modeCode .oamSearch
  | .transfer => modeCode .transfer

/-- Whether step 5 makes a mode request (R122): the new mode's enable bit is set and its tag is not the previous mode. -/
def modeEdge (c : Params) (m : Mode) (en : Bool) (prev : BitVec 2) : Bool := en && edgeTag c m != prev

/-- The display-off path (R113): budget and LY zero, the mode bits V-Blank, both bytes by the raw path; no request and
no coincidence check. -/
def updateDisplayOff (s : State) : State :=
  ((s.setBudget 0#32).rawWrite .ly 0x00#8).rawWrite .stat (withMode (s.readReg .stat) .vblank)

/-- Steps 3 to 7 of UPDATE on the enabled path (R114 to R129): every register is read once, at the start. -/
def updateEnabled (s : State) : State :=
  let st := s.readReg .stat
  let prev := modeField st
  let ly := s.readReg .ly
  let lyc := s.readReg .lyc
  let (mode, en) := mux s.cfg ly s.budget st
  let st := withMode st mode
  let s := s.requestIf (modeEdge s.cfg mode en prev) .mode
  let eq := ly == lyc
  let st := withCoincidence st eq
  let s := s.requestIf (eq && lycEnable st) .lyc
  s.rawWrite .stat st

/-- UPDATE's transition (R110, R112): `LCDC[7]` selects the path. -/
def update (s : State) : State := if lcdEn s then updateEnabled s else updateDisplayOff s

/-- `UPDATE` (R110): the transition; nothing is returned. -/
def execUpdate (s : State) : Host.Outcome State Fault Refusal := .next ((update s).returning none)

end Sys2Proof.Machine
end

