-- ==== Sys2Proof/Machine/Environment.lean ====
section
/-! DEFINITION. The environment's operations on the register group (spec/42_environment.md). -/

namespace Sys2Proof.Machine

/-- `MemWriteDispatch(a, v)` at the register `r` (R54): a write of LCDC or LYC stores its value (R155, R156); a write of
STAT or LY stores as R157 and R158 say and then performs one complete UPDATE in the same step. -/
def dispatchWrite (s : State) (r : Reg) (v : Byte) : State :=
  match r with
  | .lcdc => s.setReg .lcdc v
  | .lyc => s.setReg .lyc v
  | .stat => update (s.setReg .stat (storedStat s.stat v))
  | .ly => update (s.setReg .ly (lyStored s.cfg.lyWrite s.ly v))

/-- `MemWriteDispatch(a, v)` at an address (R54); none at an address that is no register's (R51). -/
def State.memWriteDispatch (s : State) (a : Addr) (v : Byte) : Option State :=
  (regAt s.cfg a).map fun r => dispatchWrite s r v

/-- `RELOAD` (R152): `BUDGET <- T_LINE`. -/
def execReload (s : State) : Host.Outcome State Fault Refusal :=
  .next ((s.setBudget (lineTotal s.cfg)).returning none)

/-- `ADVANCE n` (R153): `n` cycles of the budget are spent. -/
def execAdvance (n : Nat) (s : State) : Host.Outcome State Fault Refusal :=
  .next ((s.setBudget (budgetAfter s.budget n)).returning none)

/-- `SETLY imm8` (R154): the driver's raw store of LY. -/
def execSetly (imm8 : Byte) (s : State) : Host.Outcome State Fault Refusal :=
  .next ((s.rawWrite .ly imm8).returning none)

/-- `WLCDC imm8` (R155): the memory subsystem's store of LCD Control. -/
def execWlcdc (imm8 : Byte) (s : State) : Host.Outcome State Fault Refusal :=
  .next ((dispatchWrite s .lcdc imm8).returning none)

/-- `WLYC imm8` (R156): the memory subsystem's store of the line compare. -/
def execWlyc (imm8 : Byte) (s : State) : Host.Outcome State Fault Refusal :=
  .next ((dispatchWrite s .lyc imm8).returning none)

/-- `WSTAT imm8` (R157): the dispatching write of LCD Status, with its UPDATE. -/
def execWstat (imm8 : Byte) (s : State) : Host.Outcome State Fault Refusal :=
  .next ((dispatchWrite s .stat imm8).returning none)

/-- `WLY imm8` (R158): the dispatching write of the line counter, with its UPDATE. -/
def execWly (imm8 : Byte) (s : State) : Host.Outcome State Fault Refusal :=
  .next ((dispatchWrite s .ly imm8).returning none)

/-- `RD sel` (R159): returns the byte of the register, writes nothing. -/
def execRd (sel : Reg) (s : State) : Host.Outcome State Fault Refusal :=
  .next (s.returning (some (.byte (s.readReg sel))))

end Sys2Proof.Machine
end

