-- ==== Sys2Proof/Machine/Query.lean ====
section
/-! DEFINITION. The display-enable query (spec/40_query.md). -/

namespace Sys2Proof.Machine

/-- `QEN` (R100): returns `LCDC[7]`, writes nothing. -/
def execQen (s : State) : Host.Outcome State Fault Refusal :=
  .next (s.returning (some (.bit (bit (s.readReg .lcdc) 7))))

end Sys2Proof.Machine
end

