-- ==== Sys2Proof/Machine/Dispatch.lean ====
section
/-! DEFINITION. One arm per command (spec/30_encoding.md rule R76), each one call of its meaning. -/

namespace Sys2Proof.Machine

def exec (i : Instr) (s : State) : Host.Outcome State Fault Refusal :=
  match i with
  | .update => Sys2Proof.Machine.execUpdate s
  | .qen => Sys2Proof.Machine.execQen s
  | .reload => Sys2Proof.Machine.execReload s
  | .advance n => Sys2Proof.Machine.execAdvance n s
  | .setly imm8 => Sys2Proof.Machine.execSetly imm8 s
  | .wlcdc imm8 => Sys2Proof.Machine.execWlcdc imm8 s
  | .wlyc imm8 => Sys2Proof.Machine.execWlyc imm8 s
  | .wstat imm8 => Sys2Proof.Machine.execWstat imm8 s
  | .wly imm8 => Sys2Proof.Machine.execWly imm8 s
  | .rd sel => Sys2Proof.Machine.execRd sel s

end Sys2Proof.Machine
end

