-- ==== Sys2Proof/Machine/Step.lean ====
section
/-! DEFINITION. One step: the block performs the next command of the environment's stream (spec/10_state.md rule R20). -/

namespace Sys2Proof.Machine

/-- One step. With no command the block does nothing (R210); a command is performed as one atomic step (R14, R59); a
reserved command is refused (R78, R83). -/
def step (s : State) : Host.Outcome State Fault Refusal :=
  match s.nextCommand with
  | none => .next s
  | some (w, s') =>
    match decode w with
    | .instr i => exec i s'
    | .reserved _ => .next s'.refuse

/-- The state in which the environment has issued the table row's word before every other command, so that the next step
performs it. -/
def State.withFetchWord (s : State) (nbits w : Nat) : State :=
  s.issueFirst (BitVec.ofNat 36 (tableNumber nbits w))

end Sys2Proof.Machine
end

