-- ==== Sys2Proof/Machine/Assembler.lean ====
section
/-! DEFINITION. The assembly language of spec/30_encoding.md rules R80 and R81: reading a line of text, expanding a line,
and the words it assembles to. Nothing here changes the state; log entry 9 says what the text form leaves open. -/

namespace Sys2Proof.Machine

/-- The commands of a line, pseudo-instructions expanded (R81). A number is used as far as its operand's width goes;
`AsmLine.wf` refuses a line on which that would lose anything. -/
def expand : AsmLine → List Instr
  | .update => [.update]
  | .qen => [.qen]
  | .reload => [.reload]
  | .advance n => [.advance n]
  | .setly v => [.setly (BitVec.ofNat 8 v)]
  | .wlcdc v => [.wlcdc (BitVec.ofNat 8 v)]
  | .wlyc v => [.wlyc (BitVec.ofNat 8 v)]
  | .wstat v => [.wstat (BitVec.ofNat 8 v)]
  | .wly v => [.wly (BitVec.ofNat 8 v)]
  | .rd r => [.rd r]
  | .tick n => [.advance n, .update]
  | .lcdon v => [.wlcdc (BitVec.ofNat 8 v), .reload, .update]
  | .lcdoff v => [.wlcdc (BitVec.ofNat 8 v), .update]
  | .newline v => [.setly (BitVec.ofNat 8 v), .reload, .update]

/-- The words of a line; none where the assembler refuses it (R80, R81). -/
def assembleLine (l : AsmLine) : Option (List CmdWord) :=
  if l.wf then some ((expand l).map encode) else none

/-- A line's text up to its comment, which `;` starts (R80). -/
def withoutComment : List Char → List Char
  | [] => []
  | c :: cs => if c = ';' then [] else c :: withoutComment cs

/-- The parts of a text between spaces; `word` holds the characters of the current part, last first. -/
def partsFrom (word : List Char) : List Char → List (List Char)
  | [] => if word = [] then [] else [word.reverse]
  | c :: cs =>
    if c = ' ' then (if word = [] then partsFrom [] cs else word.reverse :: partsFrom [] cs)
    else partsFrom (c :: word) cs

/-- The value of a digit in base 10 or 16. -/
def digitValue (base : Nat) (c : Char) : Option Nat :=
  let v :=
    if '0' ≤ c ∧ c ≤ '9' then c.toNat - '0'.toNat
    else if 'a' ≤ c ∧ c ≤ 'f' then c.toNat - 'a'.toNat + 10
    else if 'A' ≤ c ∧ c ≤ 'F' then c.toNat - 'A'.toNat + 10
    else base
  if v < base then some v else none

/-- The number that the digits give after the value read so far. -/
def digitsFrom (base acc : Nat) : List Char → Option Nat
  | [] => some acc
  | c :: cs => (digitValue base c).bind fun d => digitsFrom base (acc * base + d) cs

/-- A decimal or `0x`-prefixed hexadecimal number, of at least one digit (R80). -/
def numberOf : List Char → Option Nat
  | '0' :: 'x' :: c :: cs => digitsFrom 16 0 (c :: cs)
  | c :: cs => digitsFrom 10 0 (c :: cs)
  | [] => none

/-- The register that RD's operand names (R80). -/
def registerOf (w : List Char) : Option Reg :=
  if w = "LCDC".toList then some .lcdc
  else if w = "STAT".toList then some .stat
  else if w = "LY".toList then some .ly
  else if w = "LYC".toList then some .lyc
  else none

/-- A mnemonic that stands alone (R80). -/
def lineOfMnemonic (m : List Char) : Option AsmLine :=
  if m = "UPDATE".toList then some .update
  else if m = "QEN".toList then some .qen
  else if m = "RELOAD".toList then some .reload
  else none

/-- A mnemonic with a number after it (R80, R81). -/
def lineOfNumber (m : List Char) (n : Nat) : Option AsmLine :=
  if m = "ADVANCE".toList then some (.advance n)
  else if m = "SETLY".toList then some (.setly n)
  else if m = "WLCDC".toList then some (.wlcdc n)
  else if m = "WLYC".toList then some (.wlyc n)
  else if m = "WSTAT".toList then some (.wstat n)
  else if m = "WLY".toList then some (.wly n)
  else if m = "TICK".toList then some (.tick n)
  else if m = "LCDON".toList then some (.lcdon n)
  else if m = "LCDOFF".toList then some (.lcdoff n)
  else if m = "NEWLINE".toList then some (.newline n)
  else none

/-- The line that a mnemonic and its operand give. -/
def lineOfOperand (m operand : List Char) : Option AsmLine :=
  if m = "RD".toList then (registerOf operand).map .rd
  else (numberOf operand).bind (lineOfNumber m)

/-- Reading one line of text (R80): mnemonic first, the operand after one or more spaces. -/
def readLine (text : List Char) : SourceLine :=
  match partsFrom [] (withoutComment text) with
  | [] => .blank
  | [m] => match lineOfMnemonic m with
    | some l => .line l
    | none => .refused
  | [m, operand] => match lineOfOperand m operand with
    | some l => .line l
    | none => .refused
  | _ :: _ :: _ :: _ => .refused

/-- The words of a program text, one command per line (R80); none where the assembler refuses a line. -/
def assemble : List (List Char) → Option (List CmdWord)
  | [] => some []
  | text :: rest =>
    match readLine text with
    | .blank => assemble rest
    | .refused => none
    | .line l => (assembleLine l).bind fun ws => (assemble rest).map fun more => ws ++ more

end Sys2Proof.Machine
end

