-- ==== Sys2Proof/Safety.lean ====
section
/-! DEFINITION. What claims about the machine speak of: the model's invariant, when a run may carry a claim
(spec/30_encoding.md rule R83), UPDATE's result in closed form (spec/41_update.md rule R130), the events of the request
log, and the range of LY that the driver owes (spec/42_environment.md rule R160). Nothing here is part of the machine. -/

namespace Sys2Proof.Machine

/-- The events of a request log are numbered from 0 in the order they were made (R32). -/
abbrev LogNumbered (log : List Request) : Prop := log.map (·.seq) = List.range log.length

/-- What every step keeps: admissible parameters (R6, R35) and a numbered request log (R32). -/
abbrev Inv (s : State) : Prop := s.cfg.Ok ∧ LogNumbered s.irqlog

/-- "A run with the mark set satisfies no claim" (R83): what the final state of a run that may carry a claim meets. -/
abbrev MayCarryClaim (s : State) : Prop := s.refused = false

/-- `k` steps of the machine from `s` end in the next state `t`. -/
abbrev Runs (k : Nat) (s t : State) : Prop := Host.Core.run Sys2Proof.core k s = .next t

/-- A command that performs an UPDATE: UPDATE itself, and the two dispatching writes (R54, R150). -/
def performsUpdate : Instr → Bool
  | .update => true
  | .wstat _ => true
  | .wly _ => true
  | .qen => false
  | .reload => false
  | .advance _ => false
  | .setly _ => false
  | .wlcdc _ => false
  | .wlyc _ => false
  | .rd _ => false

/-- The bits of the operand bus that a command uses (R75); the others are ignored. -/
def usedOperandBits : Instr → BitVec 32
  | .update => 0#32
  | .qen => 0#32
  | .reload => 0#32
  | .advance _ => 0xFFFFFFFF#32
  | .setly _ => 0xFF#32
  | .wlcdc _ => 0xFF#32
  | .wlyc _ => 0xFF#32
  | .wstat _ => 0xFF#32
  | .wly _ => 0xFF#32
  | .rd _ => 0b11#32

/-- The codes that R78 reserves: 0000 and 1011 to 1111. -/
abbrev ReservedOp (op : BitVec 4) : Prop := op = 0b0000#4 ∨ 0b1011#4 ≤ op

/-- The events one UPDATE appends to a log of length `len`: a mode request if `m`, then a coincidence request if `c`,
each numbered by the length of the log it joins (R32, R128). -/
def requestsFrom (len : Nat) (m c : Bool) : List Request :=
  (if m then [{ seq := len, src := .mode }] else []) ++
  (if c then [{ seq := if m then len + 1 else len, src := .lyc }] else [])

/-- How many events of a log came from the given gate. -/
def countOf (src : ReqSrc) (log : List Request) : Nat := (log.filter fun e => e.src == src).length

/-- The mode that an UPDATE of this state derives on its enabled path (R119). -/
def modeOf (s : State) : Mode := muxMode s.cfg s.ly s.budget

/-- The result of an UPDATE on the enabled path, in the closed form of R130; it returns nothing (R84). -/
def enabledResult (s : State) : State :=
  let m := mux s.cfg s.ly s.budget s.stat
  { s with
    stat := (s.stat &&& 0xF8#8) ||| ((BitVec.ofBool (s.ly == s.lyc)).setWidth 8 <<< 2) ||| (modeCode m.1).setWidth 8
    irqlog := s.irqlog ++ requestsFrom s.irqlog.length (m.2 && edgeTag s.cfg m.1 != s.stat.extractLsb' 0 2)
      (s.ly == s.lyc && s.stat.getLsbD 6)
    ret := none }

/-- The result of an UPDATE on the display-off path, in the closed form of R130; it returns nothing (R84). -/
def displayOffResult (s : State) : State :=
  { s with stat := (s.stat &&& 0xFC#8) ||| 0x01#8, ly := 0#8, budget := 0#32, ret := none }

/-- The coincidence flag agrees with the comparison it stands for (R26). -/
abbrev CoincidenceFresh (s : State) : Prop := s.stat.getLsbD 2 = (s.ly == s.lyc)

/-- The scan position that a display-off UPDATE leaves (R113, R192). -/
abbrev ScanFrozen (s : State) : Prop := s.ly = 0#8 ∧ s.budget = 0#32 ∧ s.stat.extractLsb' 0 2 = 0b01#2

/-- The range in which the driver owes to keep LY (R27, R160). -/
abbrev LyInRange (s : State) : Prop := s.ly.toNat ≤ 153

/-- The duty of R160 to "keep LY in 0..153", for one command in the state `s`: the byte that SETLY stores, and the byte
that `LY_WRITE_FN` stores for WLY, lie in the range. -/
def keepsLyInRange (s : State) : Instr → Bool
  | .setly v => decide (v.toNat ≤ 153)
  | .wly v => decide ((lyStored s.cfg.lyWrite s.ly v).toNat ≤ 153)
  | .update => true
  | .qen => true
  | .reload => true
  | .advance _ => true
  | .wlcdc _ => true
  | .wlyc _ => true
  | .wstat _ => true
  | .rd _ => true

/-- No WSTAT among the first `k` commands of the stream. -/
abbrev NoWstatWithin (k : Nat) (s : State) : Prop :=
  ∀ w ∈ s.pending.take k, ∀ v, decode w ≠ .instr (.wstat v)

/-- No command that performs an UPDATE among the first `k` commands of the stream. -/
abbrev NoUpdateWithin (k : Nat) (s : State) : Prop :=
  ∀ w ∈ s.pending.take k, ∀ i, decode w = .instr i → performsUpdate i = false

/-- Two states that differ, beside what was last returned, at most in `LCDC[6:0]` (R23). -/
abbrev AgreeButLcdcLow (s s' : State) : Prop :=
  { s' with lcdc := s.lcdc, ret := s.ret } = s ∧ s'.lcdc.getLsbD 7 = s.lcdc.getLsbD 7

/-- Two parameter records that differ at most in the four register addresses. -/
abbrev AgreeButAddresses (c c' : Params) : Prop :=
  { c' with addrLcdc := c.addrLcdc, addrStat := c.addrStat, addrLy := c.addrLy, addrLyc := c.addrLyc } = c

end Sys2Proof.Machine
end

