-- ==== Sys2Proof/Certificates/Slice0/Obligations.lean ====
section
/-! DEFINITION. The statements about the model. Each docstring names the rule of the spec it formalises. What rests on the
model and not on a rule's plain words: the parameters in `cfg` (log entry 1, DESIGN CHOICE); the stream in `pending`, and
that a step with no command is a step to the same state (log entry 6, DESIGN CHOICE); the return in `ret` (log entry 7,
DESIGN CHOICE); that a reserved command is a step to a next state, after which the stream goes on (log entry 8, DEDUCED).
Every statement about runs (`Runs`), and every one about all steps, takes in the steps of log entries 6 and 8. -/

open Sys2Proof Sys2Proof.Machine

/-! ## Encoding and the command stream (spec/30_encoding.md) -/

/-- Decoding the word of a well-formed command gives the command back, at every value of every operand (R74 to R76). -/
def Obligations.DecodeOfEncode : Prop :=
  ∀ i : Instr, i.wf = true → decode (encode i) = .instr i

/-- The other direction (R75, R80): a word that decodes to a command is the command's own word but for ignored operand
bits, the command is well formed, and every word with the same operation code and the same used bits decodes to it. -/
def Obligations.EncodeOfDecode : Prop :=
  ∀ (w : CmdWord) (i : Instr), decode w = .instr i →
    i.wf = true ∧
    encode i = w &&& commandWord 0xF#4 (usedOperandBits i) ∧
    ∀ w' : CmdWord, w' &&& commandWord 0xF#4 (usedOperandBits i) = encode i → decode w' = .instr i

/-- R77 and R75: each of the 16 operation codes selects its row of the opcode map, whatever the operand bus holds; what
each operand is of the operand bus; and an ignored bit changes no step: two words with the same code and the same used
bits make the same step. -/
def Obligations.OpcodeMapAndOperands : Prop :=
  (∀ d : BitVec 32,
    decode (commandWord 0b0001#4 d) = .instr .update ∧
    decode (commandWord 0b0010#4 d) = .instr .qen ∧
    decode (commandWord 0b0011#4 d) = .instr .reload ∧
    decode (commandWord 0b0100#4 d) = .instr (.advance d.toNat) ∧
    decode (commandWord 0b0101#4 d) = .instr (.setly (d.extractLsb' 0 8)) ∧
    decode (commandWord 0b0110#4 d) = .instr (.wlcdc (d.extractLsb' 0 8)) ∧
    decode (commandWord 0b0111#4 d) = .instr (.wlyc (d.extractLsb' 0 8)) ∧
    decode (commandWord 0b1000#4 d) = .instr (.wstat (d.extractLsb' 0 8)) ∧
    decode (commandWord 0b1001#4 d) = .instr (.wly (d.extractLsb' 0 8)) ∧
    (d.extractLsb' 0 2 = 0b00#2 → decode (commandWord 0b1010#4 d) = .instr (.rd .lcdc)) ∧
    (d.extractLsb' 0 2 = 0b01#2 → decode (commandWord 0b1010#4 d) = .instr (.rd .stat)) ∧
    (d.extractLsb' 0 2 = 0b10#2 → decode (commandWord 0b1010#4 d) = .instr (.rd .ly)) ∧
    (d.extractLsb' 0 2 = 0b11#2 → decode (commandWord 0b1010#4 d) = .instr (.rd .lyc))) ∧
  (∀ (op : BitVec 4) (d : BitVec 32), ReservedOp op → decode (commandWord op d) = .reserved op) ∧
  (∀ (s : State) (rest : List CmdWord) (w w' : CmdWord) (i : Instr), decode w = .instr i →
    w' &&& commandWord 0xF#4 (usedOperandBits i) = w &&& commandWord 0xF#4 (usedOperandBits i) →
    step { s with pending := w' :: rest } = step { s with pending := w :: rest })

/-- R82: the worked encoding examples, both ways. -/
def Obligations.WorkedEncodings : Prop :=
  encode .update = 0x100000000#36 ∧ encode .qen = 0x200000000#36 ∧ encode (.advance 80) = 0x400000050#36 ∧
  encode (.wstat 0x48#8) = 0x800000048#36 ∧ encode (.rd .ly) = 0xA00000002#36 ∧
  encode (.wlcdc 0x91#8) = 0x600000091#36 ∧
  decode 0x100000000#36 = .instr .update ∧ decode 0x200000000#36 = .instr .qen ∧
  decode 0x400000050#36 = .instr (.advance 80) ∧ decode 0x800000048#36 = .instr (.wstat 0x48#8) ∧
  decode 0xA00000002#36 = .instr (.rd .ly) ∧ decode 0x600000091#36 = .instr (.wlcdc 0x91#8)

/-- R81: what each pseudo-instruction expands to, when LCDON and LCDOFF are refused, and (R80) that a line the assembler
accepts assembles to words that decode to the expansion, while a line out of range is refused. -/
def Obligations.AssemblerExpandsPseudoInstructions : Prop :=
  (∀ n : Nat, expand (.tick n) = [.advance n, .update]) ∧
  (∀ v : Nat, expand (.lcdon v) = [.wlcdc (BitVec.ofNat 8 v), .reload, .update]) ∧
  (∀ v : Nat, expand (.lcdoff v) = [.wlcdc (BitVec.ofNat 8 v), .update]) ∧
  (∀ v : Nat, expand (.newline v) = [.setly (BitVec.ofNat 8 v), .reload, .update]) ∧
  (∀ v : Nat, v ≤ 255 → ((assembleLine (.lcdon v)).isSome = (BitVec.ofNat 8 v).getLsbD 7 ∧
    (assembleLine (.lcdoff v)).isSome = !(BitVec.ofNat 8 v).getLsbD 7)) ∧
  (∀ l : AsmLine, l.wf = true →
    ∃ ws, assembleLine l = some ws ∧ ws.map decode = (expand l).map .instr) ∧
  (∀ l : AsmLine, l.wf = false → assembleLine l = none)

/-- A step performs the command whose word stands first in the stream: it is that command's `exec`, in the state from
which the word has been taken (R14, R20, R60). The stream's field is the model's own (log entry 6). -/
def Obligations.StepRunsDecodedCommand : Prop :=
  ∀ (s : State) (w : CmdWord) (rest : List CmdWord) (i : Instr), s.pending = w :: rest → decode w = .instr i →
    step s = exec i { s with pending := rest }

/-- R210: the block does nothing until it receives a command. The model's choice that a step without a command is a step
to the same state is log entry 6. -/
def Obligations.NoCommandNoChange : Prop :=
  ∀ s : State, s.pending = [] → step s = .next s

/-- Commands are performed in the order they were issued, one a step (R60): after `k` steps exactly the first `k` of them
have left the stream, and the run of `j + k` steps is the run of `j` and then that of `k`. The stream's field, and a step
with no command, are the model's choice (log entry 6); that a reserved word leaves the stream like any other and the
stream goes on past it is log entry 8 (DEDUCED). -/
def Obligations.CommandsInIssueOrder : Prop :=
  (∀ (k : Nat) (s t : State), Runs k s t → t.pending = s.pending.drop k) ∧
  (∀ (j k : Nat) (s u : State), Runs (j + k) s u ↔ ∃ t, Runs j s t ∧ Runs k t u) ∧
  (∀ (s : State) (w : CmdWord), (s.issue w).pending = s.pending ++ [w])

/-- A reserved command leaves every register and the log unchanged, returns nothing and sets the mark, which no later
command clears (R83); no other word is reserved (R78). That this is a step to a next state, from which the stream goes on
past the reserved word, is no rule's plain words but log entry 8 (DEDUCED); the stream's field is log entry 6 (DESIGN
CHOICE) and the return's is log entry 7 (DESIGN CHOICE). -/
def Obligations.ReservedCommandRefused : Prop :=
  (∀ (s : State) (op : BitVec 4) (d : BitVec 32) (rest : List CmdWord), ReservedOp op →
    s.pending = commandWord op d :: rest →
    step s = .next { s with pending := rest, refused := true, ret := none }) ∧
  (∀ (w : CmdWord) (op : BitVec 4), decode w = .reserved op → op = w.extractLsb' 32 4 ∧ ReservedOp op) ∧
  (∀ (k : Nat) (s t : State), Runs k s t → s.refused = true → t.refused = true)

/-- The mark is the record of R83: over a run from a state without it, it stays clear exactly if no reserved command was
among those performed. That a run goes on past a reserved command is log entry 8 (DEDUCED), and the stream's field log
entry 6 (DESIGN CHOICE). -/
def Obligations.MarkClearIffNoReservedCommand : Prop :=
  ∀ (k : Nat) (s t : State), Runs k s t → s.refused = false →
    (t.refused = false ↔ ∀ w ∈ s.pending.take k, ∃ i, decode w = .instr i)

/-- No exception and no stuck state. R180 and R181 speak of operations and admitted commands: the third clause, that every
command's `exec` answers a next state in every state, is theirs. That a step with an empty stream answers a next state too
is log entry 6 (DESIGN CHOICE, on R210), and that a step on a reserved word does is log entry 8 (DEDUCED, on R83); the
first two clauses, about every step and every run, rest on both. -/
def Obligations.EveryStepHasNextState : Prop :=
  (∀ s : State, ∃ t, step s = .next t) ∧ (∀ (k : Nat) (s : State), ∃ t, Runs k s t) ∧
  (∀ (i : Instr) (s : State), ∃ t, exec i s = .next t)

/-! ## The display-enable query (spec/40_query.md) -/

/-- R100: QEN returns `LCDC[7]` and writes nothing, for every value of LCDC and whatever STAT holds, and sees a WLCDC at
once. -/
def Obligations.QenReturnsDisplayEnable : Prop :=
  (∀ d : BitVec 32, decode (commandWord 0b0010#4 d) = .instr .qen) ∧
  (∀ s : State, exec .qen s = .next { s with ret := some (.bit (s.lcdc.getLsbD 7)) }) ∧
  (∀ (s : State) (v : Byte), ∃ t u, exec (.wlcdc v) s = .next t ∧ exec .qen t = .next u ∧
    u.ret = some (.bit (v.getLsbD 7)))

/-- R101 (and R112): the bit QEN returns is the one by which UPDATE chooses its path. -/
def Obligations.QenAgreesWithUpdatePath : Prop :=
  ∀ s : State, ∃ b q, exec .qen s = .next q ∧ q.ret = some (.bit b) ∧
    exec .update s = .next (if b then enabledResult s else displayOffResult s)

/-! ## UPDATE (spec/41_update.md) -/

/-- R130: the result of UPDATE in closed form, on both paths. -/
def Obligations.UpdateClosedForm : Prop :=
  ∀ s : State, exec .update s =
    .next (if s.lcdc.getLsbD 7 then enabledResult s else displayOffResult s)

/-- R113: the display-off path, whatever the registers held; a second such UPDATE changes nothing. -/
def Obligations.DisplayOffUpdate : Prop :=
  ∀ s : State, s.lcdc.getLsbD 7 = false → ∃ t, exec .update s = .next t ∧
    t = { s with budget := 0#32, ly := 0x00#8, stat := (s.stat &&& 0xFC#8) ||| 0x01#8, ret := none } ∧
    t.stat.extractLsb' 2 6 = s.stat.extractLsb' 2 6 ∧ exec .update t = .next t

/-- R119: the multiplexer's four cases, that exactly one applies for admissible parameters, and that the mode depends on
LY and the budget alone. -/
def Obligations.MuxIsTotalFunction : Prop :=
  ∀ (c : Params) (ly : Byte) (b : Budget) (st : Byte), c.Ok →
    (144 ≤ ly.toNat → mux c ly b st = (.vblank, st.getLsbD 4)) ∧
    (ly.toNat < 144 ∧ c.tOam ≤ b.toInt → mux c ly b st = (.oamSearch, st.getLsbD 5)) ∧
    (ly.toNat < 144 ∧ c.tTransfer ≤ b.toInt ∧ b.toInt < c.tOam → mux c ly b st = (.transfer, false)) ∧
    (ly.toNat < 144 ∧ b.toInt < c.tTransfer → mux c ly b st = (.hblank, st.getLsbD 3)) ∧
    ([decide (144 ≤ ly.toNat), decide (ly.toNat < 144 ∧ c.tOam ≤ b.toInt),
      decide (ly.toNat < 144 ∧ c.tTransfer ≤ b.toInt ∧ b.toInt < c.tOam),
      decide (ly.toNat < 144 ∧ b.toInt < c.tTransfer)].count true = 1) ∧
    ∀ st' : Byte, (mux c ly b st').1 = (mux c ly b st).1

/-- R71: the enable bit of each mode, and that Transfer has none. -/
def Obligations.EnableBitSelector : Prop :=
  ieBit .hblank = some 3 ∧ ieBit .vblank = some 4 ∧ ieBit .oamSearch = some 5 ∧ ieBit .transfer = none ∧
  ∀ v : Byte, modeEnable v .hblank = v.getLsbD 3 ∧ modeEnable v .vblank = v.getLsbD 4 ∧
    modeEnable v .oamSearch = v.getLsbD 5 ∧ modeEnable v .transfer = false ∧ lycEnable v = v.getLsbD 6

/-- R132: what STAT, LY and the budget hold after an UPDATE on either path. -/
def Obligations.StatusAfterUpdate : Prop :=
  ∀ s : State, ∃ t, exec .update s = .next t ∧
    (s.lcdc.getLsbD 7 = true →
      t.stat.extractLsb' 0 2 = modeCode (mux s.cfg s.ly s.budget s.stat).1 ∧ t.stat.getLsbD 2 = (s.ly == s.lyc)) ∧
    (s.lcdc.getLsbD 7 = false → t.stat.extractLsb' 0 2 = 0b01#2 ∧ t.ly = 0#8 ∧ t.budget = 0#32)

/-- The mode codes an enabled UPDATE writes, window by window, with the boundary values (R70, R115 to R118). -/
def Obligations.ModeWindows : Prop :=
  ∀ s : State, s.cfg.Ok → s.lcdc.getLsbD 7 = true → ∃ t, exec .update s = .next t ∧
    (144 ≤ s.ly.toNat → t.stat.extractLsb' 0 2 = 0b01#2) ∧
    (s.ly.toNat < 144 → s.cfg.tOam ≤ s.budget.toInt → t.stat.extractLsb' 0 2 = 0b10#2) ∧
    (s.ly.toNat < 144 → s.cfg.tTransfer ≤ s.budget.toInt → s.budget.toInt < s.cfg.tOam →
      t.stat.extractLsb' 0 2 = 0b11#2) ∧
    (s.ly.toNat < 144 → s.budget.toInt < s.cfg.tTransfer → t.stat.extractLsb' 0 2 = 0b00#2)

/-- R122: an enabled UPDATE makes one mode request if the new mode's enable bit is set and its tag is not the previous
mode, and none otherwise; with the default tag that is the rule's table, and that is: exactly if the mode changed and the
new mode's enable bit is set. -/
def Obligations.ModeRequestIffModeChanged : Prop :=
  ∀ s : State, s.lcdc.getLsbD 7 = true → ∃ t m c, exec .update s = .next t ∧
    t.irqlog = s.irqlog ++ requestsFrom s.irqlog.length m c ∧
    (m = true ↔ (mux s.cfg s.ly s.budget s.stat).2 = true ∧ edgeTag s.cfg (modeOf s) ≠ s.stat.extractLsb' 0 2) ∧
    (s.cfg.hblankEdgeTag = 0#2 →
      (m = match modeOf s with
        | .hblank => s.stat.getLsbD 3 && s.stat.extractLsb' 0 2 != 0b00#2
        | .vblank => s.stat.getLsbD 4 && s.stat.extractLsb' 0 2 != 0b01#2
        | .oamSearch => s.stat.getLsbD 5 && s.stat.extractLsb' 0 2 != 0b10#2
        | .transfer => false) ∧
      (m = true ↔ modeEnable s.stat (modeOf s) = true ∧ t.stat.extractLsb' 0 2 ≠ s.stat.extractLsb' 0 2))

/-- R117: in the Transfer window the mode is 3 and no mode request is made, whatever the enable bits hold. -/
def Obligations.TransferNeverRequests : Prop :=
  ∀ s : State, s.lcdc.getLsbD 7 = true → s.ly.toNat < 144 → s.cfg.tTransfer ≤ s.budget.toInt →
    s.budget.toInt < s.cfg.tOam → ∃ t, exec .update s = .next t ∧ t.stat.extractLsb' 0 2 = 0b11#2 ∧
      countOf .mode t.irqlog = countOf .mode s.irqlog

/-- R124: the source quirk `HBLANK_EDGE_TAG = 2`. In H-Blank with bit 3 set the request is made iff the previous mode is
not 2; every further UPDATE inside H-Blank requests; the other modes are as under the default tag, and OAM-search after
H-Blank is still an edge. -/
def Obligations.QuirkTagRequests : Prop :=
  ∀ s : State, s.lcdc.getLsbD 7 = true → s.cfg.hblankEdgeTag = 2#2 →
    (modeOf s = .hblank → s.stat.getLsbD 3 = true → ∃ t u, exec .update s = .next t ∧ exec .update t = .next u ∧
      countOf .mode t.irqlog = countOf .mode s.irqlog + (if s.stat.extractLsb' 0 2 = 0b10#2 then 0 else 1) ∧
      countOf .mode u.irqlog = countOf .mode t.irqlog + 1) ∧
    (modeOf s ≠ .hblank → ∃ t, exec .update s = .next t ∧
      exec .update { s with cfg := { s.cfg with hblankEdgeTag := 0#2 } } =
        .next { t with cfg := { s.cfg with hblankEdgeTag := 0#2 } }) ∧
    (modeOf s = .oamSearch → s.stat.getLsbD 5 = true → s.stat.extractLsb' 0 2 = 0b00#2 → ∃ t,
      exec .update s = .next t ∧ countOf .mode t.irqlog = countOf .mode s.irqlog + 1)

/-- R125 and R126: the comparator runs on every enabled UPDATE, whatever the mode, the enables and the old flag: bit 2 is
the equality of LY and LYC, and beside the mode bits no other bit of STAT changes. -/
def Obligations.CoincidenceComparator : Prop :=
  ∀ s : State, s.lcdc.getLsbD 7 = true → ∃ t, exec .update s = .next t ∧
    t.stat.getLsbD 2 = decide (s.ly.toNat = s.lyc.toNat) ∧
    (∀ n : Nat, 3 ≤ n → t.stat.getLsbD n = s.stat.getLsbD n) ∧
    ∀ (v : Byte) (eq : Bool), withCoincidence v eq = if eq then v ||| 0x04#8 else v &&& 0xFB#8

/-- R127: the level gate. An enabled UPDATE makes a coincidence request iff LY equals LYC and `STAT[6]` is set; it does
not depend on the old `STAT[2]`, the previous mode or the mode. -/
def Obligations.CoincidenceRequest : Prop :=
  ∀ s : State, s.lcdc.getLsbD 7 = true → ∃ t, exec .update s = .next t ∧
    countOf .lyc t.irqlog =
      countOf .lyc s.irqlog + (if s.ly = s.lyc ∧ s.stat.getLsbD 6 = true then 1 else 0)

/-- R128: one UPDATE appends 0, 1 or 2 events, the mode request before the coincidence request, not merged; the
display-off path appends none. -/
def Obligations.RequestOrderAndNumber : Prop :=
  ∀ s : State, ∃ t m c, exec .update s = .next t ∧
    t.irqlog = s.irqlog ++ requestsFrom s.irqlog.length m c ∧
    (s.lcdc.getLsbD 7 = false → m = false ∧ c = false) ∧
    (s.lcdc.getLsbD 7 = true → (m = true ↔ modeEnable s.stat (modeOf s) = true ∧
      (if modeOf s = .hblank then s.cfg.hblankEdgeTag else modeCode (modeOf s)) ≠ s.stat.extractLsb' 0 2) ∧
      (c = true ↔ s.ly = s.lyc ∧ s.stat.getLsbD 6 = true))

/-- R131: every UPDATE preserves `STAT[7:3]`, LCDC and LYC; and `STAT[6:3]` is invariant across every sequence of
commands without a WSTAT, the one other write path of those bits. -/
def Obligations.EnableBitsPreserved : Prop :=
  (∀ s : State, ∃ t, exec .update s = .next t ∧ t.stat.extractLsb' 3 5 = s.stat.extractLsb' 3 5 ∧
    t.lcdc = s.lcdc ∧ t.lyc = s.lyc) ∧
  (∀ (k : Nat) (s t : State), Runs k s t → NoWstatWithin k s →
    t.stat.extractLsb' 3 4 = s.stat.extractLsb' 3 4)

/-- R133, with the default tag: of two UPDATEs, each an UPDATE command's or the one inside a WSTAT or a WLY, with any
commands between them that perform none, that derive the same mode, the second makes no mode request, and the two make at
most one. The run between them may hold steps without a command (log entry 6) and reserved words (log entry 8). -/
def Obligations.EdgeTriggeredOnce : Prop :=
  ∀ (i j : Instr) (k : Nat) (s t u v : State), s.cfg.hblankEdgeTag = 0#2 →
    performsUpdate i = true → performsUpdate j = true → exec i s = .next t →
    Runs k t u → NoUpdateWithin k t → exec j u = .next v →
    v.stat.extractLsb' 0 2 = t.stat.extractLsb' 0 2 →
    countOf .mode v.irqlog = countOf .mode u.irqlog ∧ countOf .mode v.irqlog ≤ countOf .mode s.irqlog + 1

/-- What R133's premise rests on, as a rule of every step from every state: a step that performs no UPDATE, on the first
command of the stream, on a reserved word (log entry 8) or without a command (log entry 6), keeps `STAT[1:0]`, the
previous mode of the next UPDATE (R25, R31), and the mode requests, and the coincidence requests too (R151). -/
def Obligations.StepWithoutUpdateKeepsModeAndRequests : Prop :=
  ∀ s t : State, step s = .next t → NoUpdateWithin 1 s →
    t.stat.extractLsb' 0 2 = s.stat.extractLsb' 0 2 ∧
    countOf .mode t.irqlog = countOf .mode s.irqlog ∧ countOf .lyc t.irqlog = countOf .lyc s.irqlog

/-- R134: with LY equal to LYC, `STAT[6]` set and the display enabled, each of any number of consecutive UPDATEs makes a
coincidence request: UPDATE commands, and those inside a WSTAT that keeps bit 6 set and inside a WLY after whose store LY
still equals LYC. The stream's field is log entry 6. -/
def Obligations.LevelRequestEveryUpdate : Prop :=
  ∀ (is : List Instr) (s : State) (rest : List CmdWord), s.lcdc.getLsbD 7 = true → s.ly = s.lyc →
    s.stat.getLsbD 6 = true →
    (∀ i ∈ is, i = .update ∨ (∃ v, i = .wstat v ∧ v.getLsbD 6 = true) ∨
      (∃ v, i = .wly v ∧ lyStored s.cfg.lyWrite s.ly v = s.lyc)) →
    s.pending = is.map encode ++ rest →
    ∃ t, Runs is.length s t ∧ countOf .lyc t.irqlog = countOf .lyc s.irqlog + is.length ∧ t.pending = rest

/-- R192: while `LCDC[7]` is 0, any positive number of UPDATEs leaves exactly what one leaves: LY and the budget 0, mode
1, no request, everything else as it was. -/
def Obligations.DisabledScanStaysFrozen : Prop :=
  ∀ (k : Nat) (s : State) (rest : List CmdWord), s.lcdc.getLsbD 7 = false →
    s.pending = List.replicate (k + 1) (encode .update) ++ rest →
    Runs (k + 1) s { s with
      ly := 0#8, budget := 0#32, stat := (s.stat &&& 0xFC#8) ||| 0x01#8, pending := rest, ret := none }

/-- Every command that performs an UPDATE takes the display-off path while the display is disabled (R113, R157, R158,
R192): the scan is frozen, nothing is requested, LCDC, LYC and the coincidence flag survive. -/
def Obligations.UpdatingCommandsWhileDisabled : Prop :=
  ∀ (i : Instr) (s : State), performsUpdate i = true → s.lcdc.getLsbD 7 = false → ∃ t, exec i s = .next t ∧
    ScanFrozen t ∧ t.irqlog = s.irqlog ∧ t.lcdc = s.lcdc ∧ t.lyc = s.lyc ∧
    t.stat.getLsbD 2 = s.stat.getLsbD 2

/-- The display is switched off and on again (R192, R214, R225): after a display-off UPDATE and a WLCDC that sets bit 7,
RELOAD and UPDATE give OAM-search at LY 0, with a mode request iff `STAT[5]` is set; UPDATE without the RELOAD selects
H-Blank instead, with a mode request iff `STAT[3]` is set. -/
def Obligations.EnableAfterDisplayOff : Prop :=
  ∀ (s : State) (v : Byte), s.cfg.Ok → s.lcdc.getLsbD 7 = false → v.getLsbD 7 = true →
    ∃ a b c d e, exec .update s = .next a ∧ exec (.wlcdc v) a = .next b ∧
      (exec .reload b = .next c ∧ exec .update c = .next d ∧ d.ly = 0#8 ∧ d.budget.toInt = s.cfg.tLine ∧
        d.stat.extractLsb' 0 2 = 0b10#2 ∧
        countOf .mode d.irqlog = countOf .mode s.irqlog + (if s.stat.getLsbD 5 then 1 else 0)) ∧
      (exec .update b = .next e ∧ e.ly = 0#8 ∧ e.stat.extractLsb' 0 2 = 0b00#2 ∧
        countOf .mode e.irqlog = countOf .mode s.irqlog + (if s.stat.getLsbD 3 then 1 else 0))

/-- R222: a single ADVANCE can carry the budget from OAM-search past Transfer into H-Blank; with the default tag and bit
3 set, the UPDATE that finds it there still makes its mode request. -/
def Obligations.SkippedTransferIsStillAnEdge : Prop :=
  ∀ (s : State) (n : Nat), s.cfg.Ok → s.cfg.hblankEdgeTag = 0#2 → s.lcdc.getLsbD 7 = true → s.ly.toNat < 144 →
    s.cfg.tOam ≤ s.budget.toInt → s.budget.toInt - n < s.cfg.tTransfer → -(2 ^ 31) ≤ s.budget.toInt - n →
    s.stat.getLsbD 3 = true → ∃ a b c, exec .update s = .next a ∧ exec (.advance n) a = .next b ∧
      exec .update b = .next c ∧ a.stat.extractLsb' 0 2 = 0b10#2 ∧ c.stat.extractLsb' 0 2 = 0b00#2 ∧
      countOf .mode c.irqlog = countOf .mode a.irqlog + 1

/-! ## The environment's operations (spec/42_environment.md) -/

/-- R152: RELOAD writes the budget alone; the first UPDATE after it on a visible line of an enabled display selects
OAM-search. -/
def Obligations.ReloadLoadsLineTotal : Prop :=
  (∀ d : BitVec 32, decode (commandWord 0b0011#4 d) = .instr .reload) ∧
  (∀ s : State, exec .reload s = .next { s with budget := BitVec.ofInt 32 s.cfg.tLine, ret := none }) ∧
  (∀ s : State, s.cfg.Ok → (BitVec.ofInt 32 s.cfg.tLine).toInt = s.cfg.tLine) ∧
  (∀ s : State, s.cfg.Ok → s.lcdc.getLsbD 7 = true → s.ly.toNat < 144 → ∃ t u, exec .reload s = .next t ∧
    exec .update t = .next u ∧ u.stat.extractLsb' 0 2 = 0b10#2)

/-- R153: ADVANCE writes the budget alone, by subtraction modulo 2^32: exact where the result fits, wrapped by 2^32
where it does not; `n = 0` changes nothing of it. -/
def Obligations.AdvanceSubtractsModulo : Prop :=
  (∀ d : BitVec 32, decode (commandWord 0b0100#4 d) = .instr (.advance d.toNat)) ∧
  (∀ (s : State) (n : Nat), exec (.advance n) s = .next { s with budget := s.budget - BitVec.ofNat 32 n, ret := none }) ∧
  (∀ (s : State) (n : Nat), -(2 ^ 31) ≤ s.budget.toInt - n →
    (s.budget - BitVec.ofNat 32 n).toInt = s.budget.toInt - n) ∧
  (∀ (s : State) (n : Nat), n < 2 ^ 32 → s.budget.toInt - n < -(2 ^ 31) →
    (s.budget - BitVec.ofNat 32 n).toInt = s.budget.toInt - n + 2 ^ 32) ∧
  (∀ s : State, exec (.advance 0) s = .next { s with ret := none })

/-- The corner of R153: from a RELOAD on, any number of ADVANCEs whose cycles together do not exceed the line's total
never wraps: the budget is the total less the cycles spent. -/
def Obligations.AdvanceWithinLineNeverWraps : Prop :=
  ∀ (ns : List Nat) (s : State) (rest : List CmdWord), s.cfg.Ok → (ns.sum : Int) ≤ s.cfg.tLine →
    s.pending = encode .reload :: ns.map (fun n => encode (.advance n)) ++ rest →
    ∃ t, Runs (ns.length + 1) s t ∧ t.budget.toInt = s.cfg.tLine - ns.sum ∧ 0 ≤ t.budget.toInt

/-- R154: SETLY stores LY alone, by the raw path: no UPDATE, so STAT is as it was. -/
def Obligations.SetlyStoresLineCounter : Prop :=
  (∀ d : BitVec 32, decode (commandWord 0b0101#4 d) = .instr (.setly (d.extractLsb' 0 8))) ∧
  (∀ (s : State) (v : Byte), exec (.setly v) s = .next { s with ly := v, ret := none })

/-- R155: WLCDC stores LCDC alone: no UPDATE, no reload, no request. A cleared bit 7 takes effect at the next UPDATE,
which takes the display-off path; QEN sees the new value at once. -/
def Obligations.WlcdcStoresControl : Prop :=
  (∀ d : BitVec 32, decode (commandWord 0b0110#4 d) = .instr (.wlcdc (d.extractLsb' 0 8))) ∧
  (∀ (s : State) (v : Byte), exec (.wlcdc v) s = .next { s with lcdc := v, ret := none }) ∧
  (∀ (s : State) (v : Byte), v.getLsbD 7 = false → ∃ t u, exec (.wlcdc v) s = .next t ∧ t.stat = s.stat ∧
    t.ly = s.ly ∧ t.budget = s.budget ∧ exec .update t = .next u ∧ u = displayOffResult t) ∧
  (∀ (s : State) (v : Byte), ∃ t u, exec (.wlcdc v) s = .next t ∧ exec .qen t = .next u ∧
    u.ret = some (.bit (v.getLsbD 7)))

/-- R156: WLYC stores LYC alone; `STAT[2]` keeps its value. -/
def Obligations.WlycStoresCompare : Prop :=
  (∀ d : BitVec 32, decode (commandWord 0b0111#4 d) = .instr (.wlyc (d.extractLsb' 0 8))) ∧
  (∀ (s : State) (v : Byte), exec (.wlyc v) s = .next { s with lyc := v, ret := none })

/-- R157: WSTAT stores bits 7:3 of its operand over STAT and then is one UPDATE, whose previous mode is the mode from
before the write: setting enable bits of the current mode makes no mode request (under the default tag), and setting bit
6 at a coincidence on an enabled display requests at once. -/
def Obligations.WstatStoresEnablesThenUpdates : Prop :=
  (∀ d : BitVec 32, decode (commandWord 0b1000#4 d) = .instr (.wstat (d.extractLsb' 0 8))) ∧
  (∀ (s : State) (v : Byte), ∃ t, exec (.wstat v) s = .next t ∧
    exec .update { s with stat := (v &&& 0xF8#8) ||| (s.stat &&& 0x07#8) } = .next t ∧
    t.stat.extractLsb' 3 5 = v.extractLsb' 3 5) ∧
  (∀ (s : State) (v : Byte), s.lcdc.getLsbD 7 = true → s.cfg.hblankEdgeTag = 0#2 →
    s.stat.extractLsb' 0 2 = modeCode (modeOf s) →
    ∃ t, exec (.wstat v) s = .next t ∧ countOf .mode t.irqlog = countOf .mode s.irqlog) ∧
  (∀ (s : State) (v : Byte), s.lcdc.getLsbD 7 = true → s.ly = s.lyc → v.getLsbD 6 = true →
    ∃ t, exec (.wstat v) s = .next t ∧ countOf .lyc t.irqlog = countOf .lyc s.irqlog + 1)

/-- WSTAT's result in closed form on both paths (R157 with R130). -/
def Obligations.WstatClosedForm : Prop :=
  ∀ (s : State) (v : Byte), ∃ t, exec (.wstat v) s = .next t ∧
    t.lcdc = s.lcdc ∧ t.lyc = s.lyc ∧ t.refused = s.refused ∧ t.cfg = s.cfg ∧ t.pending = s.pending ∧ t.ret = none ∧
    (s.lcdc.getLsbD 7 = true → t.ly = s.ly ∧ t.budget = s.budget ∧
      t.stat = (v &&& 0xF8#8) ||| ((BitVec.ofBool (s.ly == s.lyc)).setWidth 8 <<< 2) |||
        (modeCode (modeOf s)).setWidth 8 ∧
      t.irqlog = s.irqlog ++ requestsFrom s.irqlog.length
        (modeEnable v (modeOf s) && edgeTag s.cfg (modeOf s) != s.stat.extractLsb' 0 2)
        (s.ly == s.lyc && v.getLsbD 6)) ∧
    (s.lcdc.getLsbD 7 = false → t.ly = 0#8 ∧ t.budget = 0#32 ∧ t.irqlog = s.irqlog ∧
      t.stat = (v &&& 0xF8#8) ||| (s.stat &&& 0x04#8) ||| 0x01#8)

/-- R158: WLY stores what `LY_WRITE_FN` gives for the old LY and the written value, for whichever function the
parameters hold, and then is one UPDATE; with the display disabled LY is 0 whatever was stored. -/
def Obligations.WlyStoresThenUpdates : Prop :=
  (∀ d : BitVec 32, decode (commandWord 0b1001#4 d) = .instr (.wly (d.extractLsb' 0 8))) ∧
  (∀ (s : State) (v : Byte), ∃ t, exec (.wly v) s = .next t ∧
    exec .update { s with ly := lyStored s.cfg.lyWrite s.ly v } = .next t ∧
    (s.lcdc.getLsbD 7 = true → t.ly = lyStored s.cfg.lyWrite s.ly v) ∧
    (s.lcdc.getLsbD 7 = false → t.ly = 0#8)) ∧
  (∀ f : Byte → Byte → Byte, ∃ g : LyWriteFn, ∀ old v, lyStored g old v = f old v)

/-- R159: RD returns the byte of the register it names and writes nothing; with admissible addresses that is the byte
that MemRead gives at the register's address. -/
def Obligations.RdReturnsRegister : Prop :=
  (∀ d : BitVec 32,
    (d.extractLsb' 0 2 = 0b00#2 → decode (commandWord 0b1010#4 d) = .instr (.rd .lcdc)) ∧
    (d.extractLsb' 0 2 = 0b01#2 → decode (commandWord 0b1010#4 d) = .instr (.rd .stat)) ∧
    (d.extractLsb' 0 2 = 0b10#2 → decode (commandWord 0b1010#4 d) = .instr (.rd .ly)) ∧
    (d.extractLsb' 0 2 = 0b11#2 → decode (commandWord 0b1010#4 d) = .instr (.rd .lyc))) ∧
  (∀ s : State, exec (.rd .lcdc) s = .next { s with ret := some (.byte s.lcdc) } ∧
    exec (.rd .stat) s = .next { s with ret := some (.byte s.stat) } ∧
    exec (.rd .ly) s = .next { s with ret := some (.byte s.ly) } ∧
    exec (.rd .lyc) s = .next { s with ret := some (.byte s.lyc) }) ∧
  (∀ (s : State) (r : Reg), s.cfg.Ok → ∃ t v, exec (.rd r) s = .next t ∧ s.memRead (addrOf s.cfg r) = some v ∧
    t.ret = some (.byte v))

/-! ## The machine's own rules, over all commands -/

/-- R151: no command but UPDATE, WSTAT and WLY requests an interrupt. -/
def Obligations.OnlyUpdatesRequest : Prop :=
  ∀ (i : Instr) (s t : State), exec i s = .next t → performsUpdate i = false → t.irqlog = s.irqlog

/-- R25: `STAT[2:0]` is changed by no command but those that perform an UPDATE, and `STAT[7:3]` by none but WSTAT. -/
def Obligations.StatWriteOwnership : Prop :=
  ∀ (i : Instr) (s : State), ∃ t, exec i s = .next t ∧
    (performsUpdate i = false → t.stat = s.stat) ∧
    ((∀ v, i ≠ .wstat v) → t.stat.extractLsb' 3 5 = s.stat.extractLsb' 3 5) ∧
    (∀ v, i = .wstat v → t.stat.extractLsb' 3 5 = v.extractLsb' 3 5)

/-- Who writes the other registers (R23, R27, R28, R29): LCDC is written by WLCDC alone and LYC by WLYC alone; LY by
SETLY, by WLY and by the display-off path; the budget by RELOAD, by ADVANCE and by the display-off path. No command
writes the mark, the parameters or the stream. -/
def Obligations.RegisterWriters : Prop :=
  ∀ (i : Instr) (s : State), ∃ t, exec i s = .next t ∧
    ((∀ v, i ≠ .wlcdc v) → t.lcdc = s.lcdc) ∧
    ((∀ v, i ≠ .wlyc v) → t.lyc = s.lyc) ∧
    ((∀ v, i ≠ .setly v) → (∀ v, i ≠ .wly v) → (performsUpdate i = true → s.lcdc.getLsbD 7 = true) → t.ly = s.ly) ∧
    (i ≠ .reload → (∀ n, i ≠ .advance n) → (performsUpdate i = true → s.lcdc.getLsbD 7 = true) →
      t.budget = s.budget) ∧
    t.refused = s.refused ∧ t.cfg = s.cfg ∧ t.pending = s.pending

/-- What a command returns (R84): QEN a bit, RD a byte, every other command nothing. Keeping it in the state is the
model's choice (log entry 7). -/
def Obligations.CommandReturns : Prop :=
  ∀ (i : Instr) (s : State), ∃ t, exec i s = .next t ∧
    (i = .qen → ∃ b, t.ret = some (.bit b)) ∧ (∀ r, i = .rd r → ∃ v, t.ret = some (.byte v)) ∧
    (i ≠ .qen → (∀ r, i ≠ .rd r) → t.ret = none)

/-- Memory, byte by byte (R50 to R54): what every command leaves unchanged of what MemRead gives, at every one of the
65536 addresses. -/
def Obligations.MemoryFrame : Prop :=
  ∀ (i : Instr) (s : State), ∃ t, exec i s = .next t ∧ ∀ a : Addr,
    (i = .qen ∨ i = .reload ∨ (∃ n, i = .advance n) ∨ (∃ r, i = .rd r) → t.memRead a = s.memRead a) ∧
    (∀ v, i = .setly v → a ≠ s.cfg.addrLy → t.memRead a = s.memRead a) ∧
    (∀ v, i = .wlcdc v → a ≠ s.cfg.addrLcdc → t.memRead a = s.memRead a) ∧
    (∀ v, i = .wlyc v → a ≠ s.cfg.addrLyc → t.memRead a = s.memRead a) ∧
    (performsUpdate i = true → a ≠ s.cfg.addrStat → a ≠ s.cfg.addrLy → t.memRead a = s.memRead a) ∧
    (performsUpdate i = true → (∀ v, i ≠ .wly v) → s.lcdc.getLsbD 7 = true → a ≠ s.cfg.addrStat →
      t.memRead a = s.memRead a)

/-- The two access paths at the registers' addresses (R51 to R54), for admissible addresses: MemRead returns the byte the
register holds; MemWrite stores into STAT and LY and does nothing else; MemWriteDispatch is WSTAT and WLY at the addresses
of STAT and LY, and a plain store at those of LCDC and LYC. -/
def Obligations.AccessPaths : Prop :=
  ∀ (s : State) (v : Byte), s.cfg.Ok →
    s.memRead s.cfg.addrLcdc = some s.lcdc ∧ s.memRead s.cfg.addrStat = some s.stat ∧
    s.memRead s.cfg.addrLy = some s.ly ∧ s.memRead s.cfg.addrLyc = some s.lyc ∧
    s.memWriteRaw s.cfg.addrStat v = some { s with stat := v } ∧
    s.memWriteRaw s.cfg.addrLy v = some { s with ly := v } ∧
    s.memWriteDispatch s.cfg.addrLcdc v = some { s with lcdc := v } ∧
    s.memWriteDispatch s.cfg.addrLyc v = some { s with lyc := v } ∧
    (∃ t, s.memWriteDispatch s.cfg.addrStat v = some t ∧ exec (.wstat v) s = .next { t with ret := none }) ∧
    (∃ t, s.memWriteDispatch s.cfg.addrLy v = some t ∧ exec (.wly v) s = .next { t with ret := none }) ∧
    ∀ a : Addr, a ∉ [s.cfg.addrLcdc, s.cfg.addrStat, s.cfg.addrLy, s.cfg.addrLyc] →
      s.memRead a = none ∧ s.memWriteRaw a v = none ∧ s.memWriteDispatch a v = none

/-- R26: after an enabled UPDATE the coincidence flag agrees with LY and LYC, and so it stays until a command writes LY
or LYC; a display-off UPDATE and the environment's own writes leave the flag as it was. -/
def Obligations.CoincidenceFlagFreshness : Prop :=
  ∀ (i : Instr) (s : State), ∃ t, exec i s = .next t ∧
    (performsUpdate i = true → s.lcdc.getLsbD 7 = true → CoincidenceFresh t) ∧
    (CoincidenceFresh s → (∀ v, i ≠ .setly v) → (∀ v, i ≠ .wlyc v) →
      (performsUpdate i = true → s.lcdc.getLsbD 7 = true) → CoincidenceFresh t) ∧
    (performsUpdate i = true → s.lcdc.getLsbD 7 = false → t.stat.getLsbD 2 = s.stat.getLsbD 2) ∧
    (performsUpdate i = false → t.stat.getLsbD 2 = s.stat.getLsbD 2)

/-- R160's duty on LY: while the driver stores only lines 0 to 153, LY stays in that range, whatever commands come. -/
def Obligations.LineCounterStaysInRange : Prop :=
  ∀ (i : Instr) (s : State), LyInRange s → keepsLyInRange s i = true → ∃ t, exec i s = .next t ∧ LyInRange t

/-- R35: over every run, the parameters keep their values. -/
def Obligations.ConfigurationNeverChanges : Prop :=
  ∀ (k : Nat) (s t : State), Runs k s t → t.cfg = s.cfg

/-- The request log is append-only (R32): every step keeps it as a beginning and adds at most two events (R128), so a
run of `k` steps adds at most `2 * k`. -/
def Obligations.RequestLogOnlyGrows : Prop :=
  ∀ (k : Nat) (s t : State), Runs k s t → s.irqlog <+: t.irqlog ∧ t.irqlog.length ≤ s.irqlog.length + 2 * k

/-- The invariant, kept by every step from every state that meets it: admissible parameters (R6, R35) and a request log
whose events are numbered in order (R32). -/
def Obligations.StepKeepsInv : Prop :=
  ∀ s t : State, Inv s → step s = .next t → Inv t

/-- Power-on meets the invariant, for every INIT and all admissible parameters, and so does reset, whose parameters are
any that R6 admits. -/
def Obligations.PowerOnMeetsInv : Prop :=
  (∀ (c : Params) (init : RegGroup), c.Ok → Inv (State.powerOn c init)) ∧ Inv State.reset

/-- R34: at power-on every register holds what INIT gives, for every INIT; the log is empty and the mark clear. -/
def Obligations.PowerOnState : Prop :=
  ∀ (c : Params) (init : RegGroup), let s := State.powerOn c init
    s.lcdc = init.lcdc ∧ s.stat = init.stat ∧ s.ly = init.ly ∧ s.lyc = init.lyc ∧ s.budget = init.budget ∧
    s.irqlog = [] ∧ s.refused = false ∧ s.cfg = c

/-- R23: `LCDC[6:0]` has no effect: two states that differ there alone stay so over every run, and differ in what a
command returns at most. -/
def Obligations.LcdcLowBitsHaveNoEffect : Prop :=
  (∀ (k : Nat) (s s' : State), AgreeButLcdcLow s s' →
    ∃ t t', Runs k s t ∧ Runs k s' t' ∧ AgreeButLcdcLow t t') ∧
  (∀ (i : Instr) (s s' : State), AgreeButLcdcLow s s' → i ≠ .rd .lcdc →
    ∃ t t', exec i s = .next t ∧ exec i s' = .next t' ∧ t'.ret = t.ret)

/-- The values of the four addresses have no effect on any command (R51, decision D10). -/
def Obligations.AddressValuesHaveNoEffect : Prop :=
  ∀ (i : Instr) (s : State) (c : Params), AgreeButAddresses s.cfg c → ∃ t, exec i s = .next t ∧
    exec i { s with cfg := c } = .next { t with cfg := c }

/-- The block reads neither its request log nor the mark (R33, R83, R183): a command's other effects are the same
whatever they hold, and it appends the same number of events of each kind. -/
def Obligations.LogAndMarkAreNeverRead : Prop :=
  ∀ (i : Instr) (s : State) (log : List Request) (mark : Bool), ∃ t t' m c, exec i s = .next t ∧
    exec i { s with irqlog := log, refused := mark } = .next t' ∧
    { t' with irqlog := t.irqlog, refused := t.refused } = t ∧ t'.refused = mark ∧
    t.irqlog = s.irqlog ++ requestsFrom s.irqlog.length m c ∧ t'.irqlog = log ++ requestsFrom log.length m c
end

