-- ==== Sys2Proof/Laws/Encoding.lean ====
section
/-! SUPPORT. The fields of a command word, and the operands that the encoder and the decoder exchange (R74, R75). -/

namespace Sys2Proof.Laws

@[simp] theorem opField_commandWord (op : BitVec 4) (d : BitVec 32) : opField (commandWord op d) = op := by
  ext i hi
  have h : (opField (commandWord op d))[i] = (op ++ d).getLsbD (32 + i) := by
    simp only [opField, BitVec.getElem_extractLsb']; rfl
  rw [h, BitVec.getLsbD_append]
  simp [hi, BitVec.getLsbD_eq_getElem]

@[simp] theorem operandBus_commandWord (op : BitVec 4) (d : BitVec 32) : operandBus (commandWord op d) = d := by
  ext i hi
  have h : (operandBus (commandWord op d))[i] = (op ++ d).getLsbD (0 + i) := by
    simp only [operandBus, BitVec.getElem_extractLsb']; rfl
  rw [h, BitVec.getLsbD_append]
  simp [hi, BitVec.getLsbD_eq_getElem]

/-- Every word is its two fields put together. -/
theorem commandWord_fields (w : CmdWord) : commandWord (opField w) (operandBus w) = w := by
  simp only [commandWord, opField, operandBus]
  ext i hi
  simp only [BitVec.getElem_append, BitVec.getElem_extractLsb']
  split
  · simp; rfl
  · rw [BitVec.getLsbD_eq_getElem (by omega)]
    congr 1; omega

/-- Two words with the same fields are the same word. -/
theorem word_ext {w w' : CmdWord} (ho : opField w = opField w') (hd : operandBus w = operandBus w') : w = w' := by
  rw [← commandWord_fields w, ← commandWord_fields w', ho, hd]

@[simp] theorem imm8Operand_setWidth (v : Byte) : imm8Operand (v.setWidth 32) = v := by
  simp only [imm8Operand]
  ext i hi
  simp only [BitVec.getElem_extractLsb', BitVec.getLsbD_setWidth, Nat.zero_add]
  rw [BitVec.getLsbD_eq_getElem hi]
  simp; omega

@[simp] theorem nOperand_ofNat (n : Nat) (h : n < 2 ^ 32) : nOperand (BitVec.ofNat 32 n) = n := by
  simpa [nOperand] using h

@[simp] theorem selOperand_selCode (r : Reg) : selOperand ((selCode r).setWidth 32) = r := by
  cases r <;> decide

/-- The operation code of an encoded command is the command's own. -/
theorem opField_encode (i : Instr) : opField (encode i) = opcode i := opField_commandWord _ _

/-- The operand bus of an encoded command is the command's own. -/
theorem operandBus_encode (i : Instr) : operandBus (encode i) = operandBits i := operandBus_commandWord _ _

/-- Decoding a word put together from its fields is the opcode map at the fields. -/
theorem decode_commandWord (op : BitVec 4) (d : BitVec 32) : decode (commandWord op d) = decodeFields op d := by
  rw [decode, opField_commandWord, operandBus_commandWord]

/-- Two equal command words have equal fields. -/
theorem commandWord_injective {op op' : BitVec 4} {d d' : BitVec 32}
    (h : commandWord op d = commandWord op' d') : op = op' ∧ d = d' := by
  have ho := congrArg opField h
  have hd := congrArg operandBus h
  simp only [opField_commandWord, operandBus_commandWord] at ho hd
  exact ⟨ho, hd⟩

/-- Masking a word under a full operation code masks its operand bus alone. -/
theorem commandWord_and (op : BitVec 4) (d m : BitVec 32) :
    commandWord op d &&& commandWord 0xF#4 m = commandWord op (d &&& m) := by
  have ho : ∀ w w' : CmdWord, opField (w &&& w') = opField w &&& opField w' := by
    intro w w'
    simp only [opField]
    ext i hi
    simp
  have hd : ∀ w w' : CmdWord, operandBus (w &&& w') = operandBus w &&& operandBus w' := by
    intro w w'
    simp only [operandBus]
    ext i hi
    simp
  apply word_ext
  · rw [ho]
    simp only [opField_commandWord]
    exact BitVec.and_allOnes
  · rw [hd]
    simp

/-- A byte operand is the operand bus's bits 7:0 (R75). -/
theorem imm8Operand_eq_and (d : BitVec 32) : (imm8Operand d).setWidth 32 = d &&& 0xFF#32 := by
  have h : 0xFF#32 = (BitVec.allOnes 8).setWidth 32 := by decide
  rw [h]
  ext i hi
  simp only [imm8Operand, BitVec.getElem_setWidth, BitVec.getLsbD_extractLsb', BitVec.getElem_and]
  rw [BitVec.getLsbD_allOnes]
  simp [BitVec.getLsbD_eq_getElem hi, Bool.and_comm]

/-- A register operand is the operand bus's bits 1:0 (R75). -/
theorem selOperand_eq_and (d : BitVec 32) : (selCode (selOperand d)).setWidth 32 = d &&& 0b11#32 := by
  have hs : selCode (selOperand d) = d.extractLsb' 0 2 := by
    simp only [selOperand]
    generalize d.extractLsb' 0 2 = x
    revert x
    decide
  have h : 0b11#32 = (BitVec.allOnes 2).setWidth 32 := by decide
  rw [h, hs]
  ext i hi
  simp only [BitVec.getElem_setWidth, BitVec.getLsbD_extractLsb', BitVec.getElem_and]
  rw [BitVec.getLsbD_allOnes]
  simp [BitVec.getLsbD_eq_getElem hi, Bool.and_comm]

end Sys2Proof.Laws
end

