-- ==== Sys2Proof/Laws/Flags.lean ====
section
/-! SUPPORT. What each change of the status byte does to each of its fields (R24, R120, R126, R157). -/

namespace Sys2Proof.Machine

theorem modeField_withMode (v : Byte) (m : Mode) : modeField (withMode v m) = modeCode m := by
  revert v; cases m <;> decide

/-- Step 4 touches bits 1:0 alone (R120). -/
theorem upperBits_withMode (v : Byte) (m : Mode) : (withMode v m).extractLsb' 2 6 = v.extractLsb' 2 6 := by
  revert v; cases m <;> decide

/-- Step 6 touches bit 2 alone (R126). -/
theorem modeField_withCoincidence (v : Byte) (eq : Bool) : modeField (withCoincidence v eq) = modeField v := by
  revert v; cases eq <;> decide

theorem coincidence_withCoincidence (v : Byte) (eq : Bool) : bit (withCoincidence v eq) 2 = eq := by
  revert v; cases eq <;> decide

theorem upperBits_withCoincidence (v : Byte) (eq : Bool) :
    (withCoincidence v eq).extractLsb' 3 5 = v.extractLsb' 3 5 := by
  revert v; cases eq <;> decide

/-- The enable bit 6 that step 6 tests is the one sampled in step 1 (R111). -/
theorem lycEnable_withCoincidence_withMode (v : Byte) (m : Mode) (eq : Bool) :
    lycEnable (withCoincidence (withMode v m) eq) = lycEnable v := by
  revert v; cases m <;> cases eq <;> decide

/-- A dispatching write keeps the mode and the flag (R157). -/
theorem lowBits_storedStat (old v : Byte) : (storedStat old v).extractLsb' 0 3 = old.extractLsb' 0 3 := by
  ext i hi
  simp only [storedStat, BitVec.getElem_extractLsb', BitVec.getLsbD_or, BitVec.getLsbD_and]
  have : i = 0 ∨ i = 1 ∨ i = 2 := by omega
  rcases this with rfl | rfl | rfl <;> simp

/-- A dispatching write stores bits 7:3 (R157). -/
theorem upperBits_storedStat (old v : Byte) : (storedStat old v).extractLsb' 3 5 = v.extractLsb' 3 5 := by
  ext i hi
  simp only [storedStat, BitVec.getElem_extractLsb', BitVec.getLsbD_or, BitVec.getLsbD_and]
  have : i = 0 ∨ i = 1 ∨ i = 2 ∨ i = 3 ∨ i = 4 := by omega
  rcases this with rfl | rfl | rfl | rfl | rfl <;> simp

/-- Steps 4 and 6 together: the status byte an enabled UPDATE writes, in one expression (R120, R126, R130). -/
theorem withCoincidence_withMode (v : Byte) (m : Mode) (eq : Bool) : withCoincidence (withMode v m) eq =
    (v &&& 0xF8#8) ||| ((BitVec.ofBool eq).setWidth 8 <<< 2) ||| (modeCode m).setWidth 8 := by
  revert v; cases m <;> cases eq <;> decide

/-- Equal upper halves have equal bits. -/
theorem bit_of_upperBits (v v' : Byte) (h : v'.extractLsb' 3 5 = v.extractLsb' 3 5) (n : Nat) (hn : 3 ≤ n) :
    v'.getLsbD n = v.getLsbD n := by
  by_cases h8 : n < 8
  · have hb := congrArg (fun x => x.getLsbD (n - 3)) h
    simp only [BitVec.getLsbD_extractLsb'] at hb
    simpa [show n - 3 < 5 by omega, show 3 + (n - 3) = n by omega] using hb
  · rw [BitVec.getLsbD_of_ge _ _ (by omega), BitVec.getLsbD_of_ge _ _ (by omega)]

/-- Modes have different codes (R70). -/
theorem modeCode_injective (m n : Mode) (h : modeCode m = modeCode n) : m = n := by
  revert h; cases m <;> cases n <;> decide

end Sys2Proof.Machine
end

