-- ==== Sys2Proof/Laws/State.lean ====
section
/-! SUPPORT. One lemma per field and update of the state: what each named update of Machine/Ops.lean leaves in each field.
A later proof rewrites with these and never unfolds a record update. -/

namespace Sys2Proof.Machine

/-! ## A store into LCDC -/

@[simp] theorem setReg_lcdc_lcdc (s : State) (v : Byte) : (s.setReg .lcdc v).lcdc = v := rfl
@[simp] theorem setReg_lcdc_stat (s : State) (v : Byte) : (s.setReg .lcdc v).stat = s.stat := rfl
@[simp] theorem setReg_lcdc_ly (s : State) (v : Byte) : (s.setReg .lcdc v).ly = s.ly := rfl
@[simp] theorem setReg_lcdc_lyc (s : State) (v : Byte) : (s.setReg .lcdc v).lyc = s.lyc := rfl
@[simp] theorem setReg_lcdc_budget (s : State) (v : Byte) : (s.setReg .lcdc v).budget = s.budget := rfl
@[simp] theorem setReg_lcdc_irqlog (s : State) (v : Byte) : (s.setReg .lcdc v).irqlog = s.irqlog := rfl
@[simp] theorem setReg_lcdc_refused (s : State) (v : Byte) : (s.setReg .lcdc v).refused = s.refused := rfl
@[simp] theorem setReg_lcdc_cfg (s : State) (v : Byte) : (s.setReg .lcdc v).cfg = s.cfg := rfl
@[simp] theorem setReg_lcdc_pending (s : State) (v : Byte) : (s.setReg .lcdc v).pending = s.pending := rfl
@[simp] theorem setReg_lcdc_ret (s : State) (v : Byte) : (s.setReg .lcdc v).ret = s.ret := rfl

/-! ## A store into STAT -/

@[simp] theorem setReg_stat_lcdc (s : State) (v : Byte) : (s.setReg .stat v).lcdc = s.lcdc := rfl
@[simp] theorem setReg_stat_stat (s : State) (v : Byte) : (s.setReg .stat v).stat = v := rfl
@[simp] theorem setReg_stat_ly (s : State) (v : Byte) : (s.setReg .stat v).ly = s.ly := rfl
@[simp] theorem setReg_stat_lyc (s : State) (v : Byte) : (s.setReg .stat v).lyc = s.lyc := rfl
@[simp] theorem setReg_stat_budget (s : State) (v : Byte) : (s.setReg .stat v).budget = s.budget := rfl
@[simp] theorem setReg_stat_irqlog (s : State) (v : Byte) : (s.setReg .stat v).irqlog = s.irqlog := rfl
@[simp] theorem setReg_stat_refused (s : State) (v : Byte) : (s.setReg .stat v).refused = s.refused := rfl
@[simp] theorem setReg_stat_cfg (s : State) (v : Byte) : (s.setReg .stat v).cfg = s.cfg := rfl
@[simp] theorem setReg_stat_pending (s : State) (v : Byte) : (s.setReg .stat v).pending = s.pending := rfl
@[simp] theorem setReg_stat_ret (s : State) (v : Byte) : (s.setReg .stat v).ret = s.ret := rfl

/-! ## A store into LY -/

@[simp] theorem setReg_ly_lcdc (s : State) (v : Byte) : (s.setReg .ly v).lcdc = s.lcdc := rfl
@[simp] theorem setReg_ly_stat (s : State) (v : Byte) : (s.setReg .ly v).stat = s.stat := rfl
@[simp] theorem setReg_ly_ly (s : State) (v : Byte) : (s.setReg .ly v).ly = v := rfl
@[simp] theorem setReg_ly_lyc (s : State) (v : Byte) : (s.setReg .ly v).lyc = s.lyc := rfl
@[simp] theorem setReg_ly_budget (s : State) (v : Byte) : (s.setReg .ly v).budget = s.budget := rfl
@[simp] theorem setReg_ly_irqlog (s : State) (v : Byte) : (s.setReg .ly v).irqlog = s.irqlog := rfl
@[simp] theorem setReg_ly_refused (s : State) (v : Byte) : (s.setReg .ly v).refused = s.refused := rfl
@[simp] theorem setReg_ly_cfg (s : State) (v : Byte) : (s.setReg .ly v).cfg = s.cfg := rfl
@[simp] theorem setReg_ly_pending (s : State) (v : Byte) : (s.setReg .ly v).pending = s.pending := rfl
@[simp] theorem setReg_ly_ret (s : State) (v : Byte) : (s.setReg .ly v).ret = s.ret := rfl

/-! ## A store into LYC -/

@[simp] theorem setReg_lyc_lcdc (s : State) (v : Byte) : (s.setReg .lyc v).lcdc = s.lcdc := rfl
@[simp] theorem setReg_lyc_stat (s : State) (v : Byte) : (s.setReg .lyc v).stat = s.stat := rfl
@[simp] theorem setReg_lyc_ly (s : State) (v : Byte) : (s.setReg .lyc v).ly = s.ly := rfl
@[simp] theorem setReg_lyc_lyc (s : State) (v : Byte) : (s.setReg .lyc v).lyc = v := rfl
@[simp] theorem setReg_lyc_budget (s : State) (v : Byte) : (s.setReg .lyc v).budget = s.budget := rfl
@[simp] theorem setReg_lyc_irqlog (s : State) (v : Byte) : (s.setReg .lyc v).irqlog = s.irqlog := rfl
@[simp] theorem setReg_lyc_refused (s : State) (v : Byte) : (s.setReg .lyc v).refused = s.refused := rfl
@[simp] theorem setReg_lyc_cfg (s : State) (v : Byte) : (s.setReg .lyc v).cfg = s.cfg := rfl
@[simp] theorem setReg_lyc_pending (s : State) (v : Byte) : (s.setReg .lyc v).pending = s.pending := rfl
@[simp] theorem setReg_lyc_ret (s : State) (v : Byte) : (s.setReg .lyc v).ret = s.ret := rfl

/-! ## The raw write of STAT (R53) -/

@[simp] theorem rawWrite_stat_lcdc (s : State) (v : Byte) : (s.rawWrite .stat v).lcdc = s.lcdc := rfl
@[simp] theorem rawWrite_stat_stat (s : State) (v : Byte) : (s.rawWrite .stat v).stat = v := rfl
@[simp] theorem rawWrite_stat_ly (s : State) (v : Byte) : (s.rawWrite .stat v).ly = s.ly := rfl
@[simp] theorem rawWrite_stat_lyc (s : State) (v : Byte) : (s.rawWrite .stat v).lyc = s.lyc := rfl
@[simp] theorem rawWrite_stat_budget (s : State) (v : Byte) : (s.rawWrite .stat v).budget = s.budget := rfl
@[simp] theorem rawWrite_stat_irqlog (s : State) (v : Byte) : (s.rawWrite .stat v).irqlog = s.irqlog := rfl
@[simp] theorem rawWrite_stat_refused (s : State) (v : Byte) : (s.rawWrite .stat v).refused = s.refused := rfl
@[simp] theorem rawWrite_stat_cfg (s : State) (v : Byte) : (s.rawWrite .stat v).cfg = s.cfg := rfl
@[simp] theorem rawWrite_stat_pending (s : State) (v : Byte) : (s.rawWrite .stat v).pending = s.pending := rfl
@[simp] theorem rawWrite_stat_ret (s : State) (v : Byte) : (s.rawWrite .stat v).ret = s.ret := rfl

/-! ## The raw write of LY (R53) -/

@[simp] theorem rawWrite_ly_lcdc (s : State) (v : Byte) : (s.rawWrite .ly v).lcdc = s.lcdc := rfl
@[simp] theorem rawWrite_ly_stat (s : State) (v : Byte) : (s.rawWrite .ly v).stat = s.stat := rfl
@[simp] theorem rawWrite_ly_ly (s : State) (v : Byte) : (s.rawWrite .ly v).ly = v := rfl
@[simp] theorem rawWrite_ly_lyc (s : State) (v : Byte) : (s.rawWrite .ly v).lyc = s.lyc := rfl
@[simp] theorem rawWrite_ly_budget (s : State) (v : Byte) : (s.rawWrite .ly v).budget = s.budget := rfl
@[simp] theorem rawWrite_ly_irqlog (s : State) (v : Byte) : (s.rawWrite .ly v).irqlog = s.irqlog := rfl
@[simp] theorem rawWrite_ly_refused (s : State) (v : Byte) : (s.rawWrite .ly v).refused = s.refused := rfl
@[simp] theorem rawWrite_ly_cfg (s : State) (v : Byte) : (s.rawWrite .ly v).cfg = s.cfg := rfl
@[simp] theorem rawWrite_ly_pending (s : State) (v : Byte) : (s.rawWrite .ly v).pending = s.pending := rfl
@[simp] theorem rawWrite_ly_ret (s : State) (v : Byte) : (s.rawWrite .ly v).ret = s.ret := rfl

/-! ## A transfer into the budget (R56) -/

@[simp] theorem setBudget_lcdc (s : State) (b : Budget) : (s.setBudget b).lcdc = s.lcdc := rfl
@[simp] theorem setBudget_stat (s : State) (b : Budget) : (s.setBudget b).stat = s.stat := rfl
@[simp] theorem setBudget_ly (s : State) (b : Budget) : (s.setBudget b).ly = s.ly := rfl
@[simp] theorem setBudget_lyc (s : State) (b : Budget) : (s.setBudget b).lyc = s.lyc := rfl
@[simp] theorem setBudget_budget (s : State) (b : Budget) : (s.setBudget b).budget = b := rfl
@[simp] theorem setBudget_irqlog (s : State) (b : Budget) : (s.setBudget b).irqlog = s.irqlog := rfl
@[simp] theorem setBudget_refused (s : State) (b : Budget) : (s.setBudget b).refused = s.refused := rfl
@[simp] theorem setBudget_cfg (s : State) (b : Budget) : (s.setBudget b).cfg = s.cfg := rfl
@[simp] theorem setBudget_pending (s : State) (b : Budget) : (s.setBudget b).pending = s.pending := rfl
@[simp] theorem setBudget_ret (s : State) (b : Budget) : (s.setBudget b).ret = s.ret := rfl

/-! ## A request (R32) -/

@[simp] theorem request_lcdc (s : State) (src : ReqSrc) : (s.request src).lcdc = s.lcdc := rfl
@[simp] theorem request_stat (s : State) (src : ReqSrc) : (s.request src).stat = s.stat := rfl
@[simp] theorem request_ly (s : State) (src : ReqSrc) : (s.request src).ly = s.ly := rfl
@[simp] theorem request_lyc (s : State) (src : ReqSrc) : (s.request src).lyc = s.lyc := rfl
@[simp] theorem request_budget (s : State) (src : ReqSrc) : (s.request src).budget = s.budget := rfl
@[simp] theorem request_irqlog (s : State) (src : ReqSrc) : (s.request src).irqlog = s.irqlog ++ [⟨s.irqlog.length, src⟩] := rfl
@[simp] theorem request_refused (s : State) (src : ReqSrc) : (s.request src).refused = s.refused := rfl
@[simp] theorem request_cfg (s : State) (src : ReqSrc) : (s.request src).cfg = s.cfg := rfl
@[simp] theorem request_pending (s : State) (src : ReqSrc) : (s.request src).pending = s.pending := rfl
@[simp] theorem request_ret (s : State) (src : ReqSrc) : (s.request src).ret = s.ret := rfl

/-! ## A return (R84) -/

@[simp] theorem returning_lcdc (s : State) (r : Option Ret) : (s.returning r).lcdc = s.lcdc := rfl
@[simp] theorem returning_stat (s : State) (r : Option Ret) : (s.returning r).stat = s.stat := rfl
@[simp] theorem returning_ly (s : State) (r : Option Ret) : (s.returning r).ly = s.ly := rfl
@[simp] theorem returning_lyc (s : State) (r : Option Ret) : (s.returning r).lyc = s.lyc := rfl
@[simp] theorem returning_budget (s : State) (r : Option Ret) : (s.returning r).budget = s.budget := rfl
@[simp] theorem returning_irqlog (s : State) (r : Option Ret) : (s.returning r).irqlog = s.irqlog := rfl
@[simp] theorem returning_refused (s : State) (r : Option Ret) : (s.returning r).refused = s.refused := rfl
@[simp] theorem returning_cfg (s : State) (r : Option Ret) : (s.returning r).cfg = s.cfg := rfl
@[simp] theorem returning_pending (s : State) (r : Option Ret) : (s.returning r).pending = s.pending := rfl
@[simp] theorem returning_ret (s : State) (r : Option Ret) : (s.returning r).ret = r := rfl

/-! ## A refusal (R83) -/

@[simp] theorem refuse_lcdc (s : State) : (s.refuse).lcdc = s.lcdc := rfl
@[simp] theorem refuse_stat (s : State) : (s.refuse).stat = s.stat := rfl
@[simp] theorem refuse_ly (s : State) : (s.refuse).ly = s.ly := rfl
@[simp] theorem refuse_lyc (s : State) : (s.refuse).lyc = s.lyc := rfl
@[simp] theorem refuse_budget (s : State) : (s.refuse).budget = s.budget := rfl
@[simp] theorem refuse_irqlog (s : State) : (s.refuse).irqlog = s.irqlog := rfl
@[simp] theorem refuse_refused (s : State) : (s.refuse).refused = true := rfl
@[simp] theorem refuse_cfg (s : State) : (s.refuse).cfg = s.cfg := rfl
@[simp] theorem refuse_pending (s : State) : (s.refuse).pending = s.pending := rfl
@[simp] theorem refuse_ret (s : State) : (s.refuse).ret = none := rfl

/-! ## A command issued (R60) -/

@[simp] theorem issue_lcdc (s : State) (w : CmdWord) : (s.issue w).lcdc = s.lcdc := rfl
@[simp] theorem issue_stat (s : State) (w : CmdWord) : (s.issue w).stat = s.stat := rfl
@[simp] theorem issue_ly (s : State) (w : CmdWord) : (s.issue w).ly = s.ly := rfl
@[simp] theorem issue_lyc (s : State) (w : CmdWord) : (s.issue w).lyc = s.lyc := rfl
@[simp] theorem issue_budget (s : State) (w : CmdWord) : (s.issue w).budget = s.budget := rfl
@[simp] theorem issue_irqlog (s : State) (w : CmdWord) : (s.issue w).irqlog = s.irqlog := rfl
@[simp] theorem issue_refused (s : State) (w : CmdWord) : (s.issue w).refused = s.refused := rfl
@[simp] theorem issue_cfg (s : State) (w : CmdWord) : (s.issue w).cfg = s.cfg := rfl
@[simp] theorem issue_pending (s : State) (w : CmdWord) : (s.issue w).pending = s.pending ++ [w] := rfl
@[simp] theorem issue_ret (s : State) (w : CmdWord) : (s.issue w).ret = s.ret := rfl

/-! ## A command put first -/

@[simp] theorem issueFirst_lcdc (s : State) (w : CmdWord) : (s.issueFirst w).lcdc = s.lcdc := rfl
@[simp] theorem issueFirst_stat (s : State) (w : CmdWord) : (s.issueFirst w).stat = s.stat := rfl
@[simp] theorem issueFirst_ly (s : State) (w : CmdWord) : (s.issueFirst w).ly = s.ly := rfl
@[simp] theorem issueFirst_lyc (s : State) (w : CmdWord) : (s.issueFirst w).lyc = s.lyc := rfl
@[simp] theorem issueFirst_budget (s : State) (w : CmdWord) : (s.issueFirst w).budget = s.budget := rfl
@[simp] theorem issueFirst_irqlog (s : State) (w : CmdWord) : (s.issueFirst w).irqlog = s.irqlog := rfl
@[simp] theorem issueFirst_refused (s : State) (w : CmdWord) : (s.issueFirst w).refused = s.refused := rfl
@[simp] theorem issueFirst_cfg (s : State) (w : CmdWord) : (s.issueFirst w).cfg = s.cfg := rfl
@[simp] theorem issueFirst_pending (s : State) (w : CmdWord) : (s.issueFirst w).pending = w :: s.pending := rfl
@[simp] theorem issueFirst_ret (s : State) (w : CmdWord) : (s.issueFirst w).ret = s.ret := rfl

/-! ## A request under a condition -/

@[simp] theorem requestIf_lcdc (s : State) (p : Bool) (src : ReqSrc) : (s.requestIf p src).lcdc = s.lcdc := by
  cases p <;> rfl
@[simp] theorem requestIf_stat (s : State) (p : Bool) (src : ReqSrc) : (s.requestIf p src).stat = s.stat := by
  cases p <;> rfl
@[simp] theorem requestIf_ly (s : State) (p : Bool) (src : ReqSrc) : (s.requestIf p src).ly = s.ly := by
  cases p <;> rfl
@[simp] theorem requestIf_lyc (s : State) (p : Bool) (src : ReqSrc) : (s.requestIf p src).lyc = s.lyc := by
  cases p <;> rfl
@[simp] theorem requestIf_budget (s : State) (p : Bool) (src : ReqSrc) : (s.requestIf p src).budget = s.budget := by
  cases p <;> rfl
@[simp] theorem requestIf_refused (s : State) (p : Bool) (src : ReqSrc) : (s.requestIf p src).refused = s.refused := by
  cases p <;> rfl
@[simp] theorem requestIf_cfg (s : State) (p : Bool) (src : ReqSrc) : (s.requestIf p src).cfg = s.cfg := by
  cases p <;> rfl
@[simp] theorem requestIf_pending (s : State) (p : Bool) (src : ReqSrc) : (s.requestIf p src).pending = s.pending := by
  cases p <;> rfl
@[simp] theorem requestIf_ret (s : State) (p : Bool) (src : ReqSrc) : (s.requestIf p src).ret = s.ret := by
  cases p <;> rfl
@[simp] theorem requestIf_irqlog (s : State) (p : Bool) (src : ReqSrc) :
    (s.requestIf p src).irqlog = s.irqlog ++ (if p then [⟨s.irqlog.length, src⟩] else []) := by
  cases p <;> simp [State.requestIf]

/-! ## Reading the registers -/

@[simp] theorem readReg_lcdc (s : State) : s.readReg .lcdc = s.lcdc := rfl
@[simp] theorem readReg_stat (s : State) : s.readReg .stat = s.stat := rfl
@[simp] theorem readReg_ly (s : State) : s.readReg .ly = s.ly := rfl
@[simp] theorem readReg_lyc (s : State) : s.readReg .lyc = s.lyc := rfl

/-- Two states with equal fields are equal. -/
theorem State.eq_of_fields (s t : State)
    (h0 : s.lcdc = t.lcdc) (h1 : s.stat = t.stat) (h2 : s.ly = t.ly) (h3 : s.lyc = t.lyc) (h4 : s.budget = t.budget)
    (h5 : s.irqlog = t.irqlog) (h6 : s.refused = t.refused) (h7 : s.cfg = t.cfg) (h8 : s.pending = t.pending) (h9 : s.ret = t.ret) : s = t := by
  cases s
  cases t
  simp_all

end Sys2Proof.Machine
end

