-- ==== Sys2Proof/Laws/Ops.lean ====
section
/-! SUPPORT. One lemma for each shared operation that is more than a record update: the register map (R51), reading and
writing a register, `LY_WRITE_FN` as data (R158), the budget's arithmetic (R152, R153) and the command stream (R60). -/

namespace Sys2Proof.Machine

/-- With admissible addresses the register at a register's address is that register (R51). -/
theorem regAt_addrOf (c : Params) (h : c.Ok) (r : Reg) : regAt c (addrOf c r) = some r := by
  obtain ⟨-, -, -, -, hn, -⟩ := h
  simp only [List.nodup_cons, List.mem_cons, List.not_mem_nil, or_false, not_or] at hn
  obtain ⟨⟨h1, h2, h3⟩, ⟨h4, h5⟩, h6, -⟩ := hn
  cases r <;> simp [regAt, addrOf, Ne.symm h1, Ne.symm h2, Ne.symm h3, Ne.symm h4, Ne.symm h5, Ne.symm h6]

/-- A register stands at its own address alone. -/
theorem addrOf_of_regAt (c : Params) (a : Addr) (r : Reg) (h : regAt c a = some r) : a = addrOf c r := by
  unfold regAt at h
  split at h
  · cases h; assumption
  split at h
  · cases h; assumption
  split at h
  · cases h; assumption
  split at h
  · cases h; assumption
  cases h

/-- A store into a register is read back. -/
theorem readReg_setReg_self (s : State) (r : Reg) (v : Byte) : (s.setReg r v).readReg r = v := by
  cases r <;> rfl

/-- A store into a register leaves every other register alone. -/
theorem readReg_setReg_of_ne (s : State) (r r' : Reg) (v : Byte) (h : r' ≠ r) :
    (s.setReg r v).readReg r' = s.readReg r' := by
  cases r <;> cases r' <;> first | rfl | exact absurd rfl h

/-- MemRead depends on the parameters and the register at the address alone. -/
theorem memRead_congr (s t : State) (a : Addr) (hc : t.cfg = s.cfg)
    (hr : ∀ r, a = addrOf s.cfg r → t.readReg r = s.readReg r) : t.memRead a = s.memRead a := by
  unfold State.memRead
  rw [hc]
  cases h : regAt s.cfg a with
  | none => rfl
  | some r => simp [hr r (addrOf_of_regAt _ _ _ h)]

/-- A table whose every entry is right, and that has an entry for the argument, gives the right value. -/
theorem storedByTable_of_mem (f : Byte → Byte → Byte) (old v : Byte) (l : List (Byte × Byte × Byte))
    (hl : ∀ e ∈ l, e.2.2 = f e.1 e.2.1) (hm : (old, v, f old v) ∈ l) : storedByTable old v l = f old v := by
  induction l with
  | nil => simp at hm
  | cons e rest ih =>
    obtain ⟨o, x, r⟩ := e
    have hr : r = f o x := hl (o, x, r) (by simp)
    unfold storedByTable
    split
    · next h => rw [hr, h.1, h.2]
    · next h =>
      refine ih (fun e he => hl e (by simp [he])) ?_
      rcases List.mem_cons.1 hm with h' | h'
      · simp only [Prod.mk.injEq] at h'
        exact absurd ⟨h'.1.symm, h'.2.1.symm⟩ h
      · exact h'

/-- Every byte, in a list. -/
def allBytes : List Byte := (List.range 256).map (BitVec.ofNat 8)

theorem mem_allBytes (v : Byte) : v ∈ allBytes :=
  List.mem_map.2 ⟨v.toNat, List.mem_range.2 v.isLt, by simp⟩

/-- An admissible total is a budget (R6), so RELOAD loads it exactly. -/
theorem lineTotal_toInt (c : Params) (h : c.Ok) : (lineTotal c).toInt = c.tLine := by
  obtain ⟨h1, h2, h3, h4, -, -⟩ := h
  simp only [lineTotal, BitVec.toInt_ofInt]
  exact Int.bmod_eq_of_le (by norm_num; omega) (by norm_num; omega)

/-- ADVANCE's arithmetic is subtraction modulo 2^32 (R153). -/
theorem budgetAfter_eq_sub (b : Budget) (n : Nat) : budgetAfter b n = b - BitVec.ofNat 32 n := by
  apply BitVec.eq_of_toInt_eq
  simp only [budgetAfter, BitVec.toInt_sub, BitVec.toInt_ofInt, BitVec.toInt_ofNat']
  exact (Int.sub_bmod_bmod ..).symm

/-- ADVANCE's arithmetic is exact where the result is a budget (R153). -/
theorem budgetAfter_toInt (b : Budget) (n : Nat) (h : -(2 ^ 31) ≤ b.toInt - n) :
    (budgetAfter b n).toInt = b.toInt - n := by
  simp only [budgetAfter, BitVec.toInt_ofInt]
  have hb := BitVec.toInt_lt (x := b)
  exact Int.bmod_eq_of_le (by norm_num at *; omega) (by norm_num at *; omega)

/-- The next command and the state without it. -/
theorem nextCommand_eq_some (s s' : State) (w : CmdWord) :
    s.nextCommand = some (w, s') ↔ ∃ rest, s.pending = w :: rest ∧ s' = { s with pending := rest } := by
  unfold State.nextCommand
  split
  · next h => simp [h]
  · next v rest h =>
    simp only [Option.some.injEq, Prod.mk.injEq, h, List.cons.injEq]
    constructor
    · rintro ⟨rfl, rfl⟩; exact ⟨rest, ⟨rfl, rfl⟩, rfl⟩
    · rintro ⟨_, ⟨rfl, rfl⟩, rfl⟩; exact ⟨rfl, rfl⟩

theorem nextCommand_eq_none (s : State) : s.nextCommand = none ↔ s.pending = [] := by
  unfold State.nextCommand
  split <;> simp_all

end Sys2Proof.Machine

namespace Sys2Proof.Laws

open Sys2Proof.Machine

/-- The exception table loses nothing: it can be the full table of a function (log entry 4). -/
def tableOf (f : Byte → Byte → Byte) : LyWriteFn :=
  ⟨allBytes.flatMap fun old => allBytes.map fun v => (old, v, f old v)⟩

theorem lyStored_tableOf (f : Byte → Byte → Byte) (old v : Byte) : lyStored (tableOf f) old v = f old v := by
  refine storedByTable_of_mem f old v _ ?_ ?_
  · intro e he
    simp only [tableOf, List.mem_flatMap, List.mem_map] at he
    obtain ⟨o, -, x, -, rfl⟩ := he
    rfl
  · exact List.mem_flatMap.2 ⟨old, mem_allBytes old, List.mem_map.2 ⟨v, mem_allBytes v, rfl⟩⟩

end Sys2Proof.Laws
end

