-- ==== Sys2Proof/Laws/PerInstr.lean ====
section
/-! SUPPORT. The per-instruction family `OpField`: the operation code that each command's word carries is its row's
(R76), is not reserved (R78), and its operand bus has no bit beside those the command uses (R75, R80). -/

namespace Sys2Proof.Laws.OpField

open Sys2Proof.Machine

def Statement (i : Instr) : Prop :=
  opField (encode i) = opcode i ∧ ¬ ReservedOp (opcode i) ∧
    operandBus (encode i) &&& usedOperandBits i = operandBus (encode i)

/-- A byte on the operand bus uses bits 7:0 alone. -/
theorem byte_and_used (v : Byte) : v.setWidth 32 &&& 0xFF#32 = v.setWidth 32 := by
  revert v; decide

theorem update : Statement .update := ⟨opField_encode _, by decide, by decide⟩

theorem qen : Statement .qen := ⟨opField_encode _, by decide, by decide⟩

theorem reload : Statement .reload := ⟨opField_encode _, by decide, by decide⟩

theorem advance (n : Nat) : Statement (.advance n) :=
  ⟨opField_encode _, by simp only [opcode]; decide, by rw [operandBus_encode]; exact BitVec.and_allOnes⟩

theorem setly (v : Byte) : Statement (.setly v) :=
  ⟨opField_encode _, by simp only [opcode]; decide, by rw [operandBus_encode]; exact byte_and_used v⟩

theorem wlcdc (v : Byte) : Statement (.wlcdc v) :=
  ⟨opField_encode _, by simp only [opcode]; decide, by rw [operandBus_encode]; exact byte_and_used v⟩

theorem wlyc (v : Byte) : Statement (.wlyc v) :=
  ⟨opField_encode _, by simp only [opcode]; decide, by rw [operandBus_encode]; exact byte_and_used v⟩

theorem wstat (v : Byte) : Statement (.wstat v) :=
  ⟨opField_encode _, by simp only [opcode]; decide, by rw [operandBus_encode]; exact byte_and_used v⟩

theorem wly (v : Byte) : Statement (.wly v) :=
  ⟨opField_encode _, by simp only [opcode]; decide, by rw [operandBus_encode]; exact byte_and_used v⟩

theorem rd (r : Reg) : Statement (.rd r) :=
  ⟨opField_encode _, by simp only [opcode]; decide, by rw [operandBus_encode]; cases r <;> decide⟩

end Sys2Proof.Laws.OpField
end

