-- ==== Sys2Proof/Laws/Requests.lean ====
section
/-! SUPPORT. The events of the request log: counting them, and their numbering (R32, R128). -/

namespace Sys2Proof.Machine

@[simp] theorem countOf_append (src : ReqSrc) (l l' : List Request) :
    countOf src (l ++ l') = countOf src l + countOf src l' := by
  simp [countOf]

@[simp] theorem countOf_mode_requestsFrom (len : Nat) (m c : Bool) :
    countOf .mode (requestsFrom len m c) = if m then 1 else 0 := by
  cases m <;> cases c <;> rfl

@[simp] theorem countOf_lyc_requestsFrom (len : Nat) (m c : Bool) :
    countOf .lyc (requestsFrom len m c) = if c then 1 else 0 := by
  cases m <;> cases c <;> rfl

theorem requestsFrom_length_le (len : Nat) (m c : Bool) : (requestsFrom len m c).length ≤ 2 := by
  cases m <;> cases c <;> simp [requestsFrom]

theorem requestsFrom_none (len : Nat) : requestsFrom len false false = [] := rfl

/-- Two conditional requests, mode first, append what `requestsFrom` lists. -/
theorem requestIf_requestIf_irqlog (s : State) (m c : Bool) :
    ((s.requestIf m .mode).requestIf c .lyc).irqlog = s.irqlog ++ requestsFrom s.irqlog.length m c := by
  cases m <;> cases c <;> simp [requestsFrom]

/-- An event numbered by the length of the log keeps the log numbered. -/
theorem logNumbered_request (s : State) (src : ReqSrc) (h : LogNumbered s.irqlog) :
    LogNumbered (s.request src).irqlog := by
  simp only [LogNumbered] at h
  simp [LogNumbered, h, List.range_succ]

end Sys2Proof.Machine
end

