-- ==== Sys2Proof/Laws/Update.lean ====
section
/-! SUPPORT. What UPDATE and the dispatching writes can do, field by field (R110 to R129, R54). -/

namespace Sys2Proof.Machine

/-! ## The multiplexer's windows (R115 to R118) -/

theorem muxMode_vblank (c : Params) (ly : Byte) (b : Budget) (h : 144 ≤ ly.toNat) : muxMode c ly b = .vblank := by
  have : vblankLine ≤ ly := h
  simp [muxMode, this]

theorem muxMode_visible (c : Params) (ly : Byte) (b : Budget) (h : ly.toNat < 144) : muxMode c ly b =
    if c.tOam ≤ b.toInt then .oamSearch else if c.tTransfer ≤ b.toInt then .transfer else .hblank := by
  have : ¬ vblankLine ≤ ly := by
    show ¬ (144 ≤ ly.toNat)
    omega
  simp [muxMode, this]

/-! ## What no path of UPDATE changes -/

theorem update_lcdc (s : State) : (update s).lcdc = s.lcdc := by
  unfold update; split <;> simp [updateEnabled, updateDisplayOff]

theorem update_lyc (s : State) : (update s).lyc = s.lyc := by
  unfold update; split <;> simp [updateEnabled, updateDisplayOff]

theorem update_refused (s : State) : (update s).refused = s.refused := by
  unfold update; split <;> simp [updateEnabled, updateDisplayOff]

theorem update_cfg (s : State) : (update s).cfg = s.cfg := by
  unfold update; split <;> simp [updateEnabled, updateDisplayOff]

theorem update_pending (s : State) : (update s).pending = s.pending := by
  unfold update; split <;> simp [updateEnabled, updateDisplayOff]

/-! ## The enabled path -/

theorem updateEnabled_ly (s : State) : (updateEnabled s).ly = s.ly := by simp [updateEnabled]

theorem updateEnabled_budget (s : State) : (updateEnabled s).budget = s.budget := by simp [updateEnabled]

theorem updateEnabled_stat (s : State) : (updateEnabled s).stat =
    withCoincidence (withMode s.stat (muxMode s.cfg s.ly s.budget)) (s.ly == s.lyc) := by
  simp [updateEnabled, mux]

/-- The two gates, in their order (R128). -/
theorem updateEnabled_irqlog (s : State) : (updateEnabled s).irqlog =
    ((s.requestIf (modeEdge s.cfg (muxMode s.cfg s.ly s.budget)
      (modeEnable s.stat (muxMode s.cfg s.ly s.budget)) (modeField s.stat)) .mode).requestIf
        (s.ly == s.lyc && lycEnable s.stat) .lyc).irqlog := by
  have h : (updateEnabled s).irqlog =
      ((s.requestIf (modeEdge s.cfg (muxMode s.cfg s.ly s.budget)
        (modeEnable s.stat (muxMode s.cfg s.ly s.budget)) (modeField s.stat)) .mode).requestIf
          (s.ly == s.lyc && lycEnable (withCoincidence (withMode s.stat (muxMode s.cfg s.ly s.budget))
            (s.ly == s.lyc))) .lyc).irqlog := rfl
  rw [h, lycEnable_withCoincidence_withMode]

/-! ## The display-off path -/

theorem updateDisplayOff_ly (s : State) : (updateDisplayOff s).ly = 0#8 := rfl

theorem updateDisplayOff_budget (s : State) : (updateDisplayOff s).budget = 0#32 := rfl

theorem updateDisplayOff_stat (s : State) : (updateDisplayOff s).stat = withMode s.stat .vblank := rfl

theorem updateDisplayOff_irqlog (s : State) : (updateDisplayOff s).irqlog = s.irqlog := rfl

/-! ## The dispatching writes -/

theorem dispatchWrite_cfg (s : State) (r : Reg) (v : Byte) : (dispatchWrite s r v).cfg = s.cfg := by
  cases r <;> simp [dispatchWrite, update_cfg]

theorem dispatchWrite_refused (s : State) (r : Reg) (v : Byte) : (dispatchWrite s r v).refused = s.refused := by
  cases r <;> simp [dispatchWrite, update_refused]

theorem dispatchWrite_pending (s : State) (r : Reg) (v : Byte) : (dispatchWrite s r v).pending = s.pending := by
  cases r <;> simp [dispatchWrite, update_pending]

end Sys2Proof.Machine
end

