-- ==== Sys2Proof/Laws/Step.lean ====
section
/-! SUPPORT. What one command and one step can do, said once, and the induction over runs. -/

namespace Sys2Proof.Machine

/-! ## One command -/

/-- No command writes the parameters (R35). -/
theorem exec_cfg (i : Instr) (s t : State) (h : exec i s = .next t) : t.cfg = s.cfg := by
  cases i <;> cases h <;> simp [update_cfg, dispatchWrite_cfg]

/-- No command writes the mark; only a reserved word sets it (R83). -/
theorem exec_refused (i : Instr) (s t : State) (h : exec i s = .next t) : t.refused = s.refused := by
  cases i <;> cases h <;> simp [update_refused, dispatchWrite_refused]

/-- No command touches the commands issued after it (R60). -/
theorem exec_pending (i : Instr) (s t : State) (h : exec i s = .next t) : t.pending = s.pending := by
  cases i <;> cases h <;> simp [update_pending, dispatchWrite_pending]

/-- A command appends to the log what one UPDATE can append, and nothing else (R128, R151). -/
theorem exec_irqlog (i : Instr) (s t : State) (h : exec i s = .next t) :
    ∃ m c, t.irqlog = s.irqlog ++ requestsFrom s.irqlog.length m c := by
  have update_irqlog : ∀ s, ∃ m c, (update s).irqlog = s.irqlog ++ requestsFrom s.irqlog.length m c := by
    intro s
    unfold update
    split
    · exact ⟨_, _, (updateEnabled_irqlog s).trans (requestIf_requestIf_irqlog s _ _)⟩
    · exact ⟨false, false, by simp [updateDisplayOff_irqlog, requestsFrom_none]⟩
  cases i <;> cases h
  case update => exact update_irqlog s
  case wstat v => exact update_irqlog (s.setReg .stat (storedStat s.stat v))
  case wly v => exact update_irqlog (s.setReg .ly (lyStored s.cfg.lyWrite s.ly v))
  all_goals exact ⟨false, false, by simp [requestsFrom_none, dispatchWrite]⟩

/-! ## One step -/

/-- A step is one of three things: nothing, where no command has been issued; the first command's `exec`; or the refusal
of a reserved word (R14, R78, R83, R210). -/
theorem step_cases (s t : State) (h : step s = .next t) :
    (s.pending = [] ∧ t = s) ∨
    (∃ w rest i, s.pending = w :: rest ∧ decode w = .instr i ∧ exec i { s with pending := rest } = .next t) ∨
    (∃ w rest op, s.pending = w :: rest ∧ decode w = .reserved op ∧
      t = ({ s with pending := rest } : State).refuse) := by
  unfold step at h
  split at h
  · next hn =>
    cases h
    exact .inl ⟨(nextCommand_eq_none s).1 hn, rfl⟩
  · next w s' hn =>
    obtain ⟨rest, hp, rfl⟩ := (nextCommand_eq_some s s' w).1 hn
    split at h
    · next i hd => exact .inr (.inl ⟨w, rest, i, hp, hd, h⟩)
    · next op hd =>
      cases h
      exact .inr (.inr ⟨w, rest, op, hp, hd, rfl⟩)

/-! ## Runs -/

theorem runs_zero (s t : State) : Runs 0 s t ↔ t = s := by
  constructor
  · intro h; cases h; rfl
  · rintro rfl; rfl

/-- A run of one step more is a step and then a run. -/
theorem runs_succ (k : Nat) (s t : State) : Runs (k + 1) s t ↔ ∃ u, step s = .next u ∧ Runs k u t := by
  have hs : Sys2Proof.core.step s = step s := rfl
  simp only [Runs, Host.Core.run]
  rw [hs]
  cases step s with
  | next u => exact ⟨fun h => ⟨u, rfl, h⟩, fun ⟨_, he, h⟩ => by cases he; exact h⟩
  | fault r => exact nomatch r
  | refused r => exact ⟨fun h => (nomatch h), fun ⟨_, he, _⟩ => nomatch he⟩

/-- What relates a state to itself, and composes one step with a run, relates the two ends of every run. -/
theorem runs_induction (R : Nat → State → State → Prop) (h0 : ∀ s, R 0 s s)
    (hs : ∀ k s u t, step s = .next u → Runs k u t → R k u t → R (k + 1) s t) :
    ∀ k s t, Runs k s t → R k s t := by
  intro k
  induction k with
  | zero => intro s t h; cases (runs_zero s t).1 h; exact h0 s
  | succ k ih =>
    intro s t h
    obtain ⟨u, h1, h2⟩ := (runs_succ k s t).1 h
    exact hs k s u t h1 h2 (ih u t h2)

end Sys2Proof.Machine
end

