-- ==== Sys2Proof/Tests/Slice0.lean ====
section
/-! SUPPORT. Tests whose expected results come from spec/95_test_vectors.md and the worked examples of the rules (named in
each comment), and one witness for each statement of Certificates/Slice0/Obligations.lean that has hypotheses: a concrete
state and operands that meet them. -/

namespace Sys2Proof.Tests

open Sys2Proof Sys2Proof.Machine

/-! ## A small state -/

/-- The configuration CFG-T of spec/95_test_vectors.md, under the given H-Blank tag; the addresses are any four. -/
def cfgT (tag : BitVec 2) : Params := ⟨8, 16, 20, 0x1000#16, 0x1001#16, 0x1002#16, 0x1003#16, tag, ⟨[]⟩⟩

/-- The registers, under CFG-T; an empty log, no command, nothing returned. -/
def st (tag : BitVec 2) (lcdc stat ly lyc : Byte) (budget : Int) : State :=
  ⟨lcdc, stat, ly, lyc, BitVec.ofInt 32 budget, [], false, cfgT tag, [], none⟩

/-- A field of the state an outcome ends in. -/
def got {α : Type} (f : State → α) : Host.Outcome State Fault Refusal → Option α
  | .next t => some (f t)
  | .fault _ => none
  | .refused _ => none

/-- What the vectors' columns show: STAT, LY, the budget and the requests made. -/
def shown (s : State) : Byte × Byte × Int × List ReqSrc := (s.stat, s.ly, s.budget.toInt, s.irqlog.map (·.src))

/-! ## Decoding: the words of V-ENC-1 to V-ENC-9 (rule R82), bit by bit from rules R74 to R76 -/

theorem test_decode_update : decode 0b0001_11111111111111111111111111111111#36 = .instr .update := by decide
theorem test_decode_qen : decode 0b0010_00000000000000000000000000000000#36 = .instr .qen := by decide
theorem test_decode_reload : decode 0b0011_00000000000000000000000000000000#36 = .instr .reload := by decide
theorem test_decode_advance :
    decode 0b0100_11111111111111111111111111111111#36 = .instr (.advance 4294967295) := by decide
theorem test_decode_setly : decode 0b0101_00000000000000000000000010010000#36 = .instr (.setly 144#8) := by decide
theorem test_decode_wlcdc : decode 0b0110_11111111111111111111111110010001#36 = .instr (.wlcdc 0x91#8) := by decide
theorem test_decode_wlyc : decode 0b0111_00000000000000000000000010010001#36 = .instr (.wlyc 145#8) := by decide
theorem test_decode_wstat : decode 0b1000_00000000000000000000000001001000#36 = .instr (.wstat 0x48#8) := by decide
theorem test_decode_wly : decode 0b1001_00000000000000000000000000110010#36 = .instr (.wly 50#8) := by decide
theorem test_decode_rd :
    decode 0b1010_00000000000000000000000000000000#36 = .instr (.rd .lcdc) ∧
    decode 0b1010_00000000000000000000000000000001#36 = .instr (.rd .stat) ∧
    decode 0b1010_11111111111111111111111111111110#36 = .instr (.rd .ly) ∧
    decode 0b1010_00000000000000000000000000000011#36 = .instr (.rd .lyc) := by decide
theorem test_decode_reserved :
    decode 0x000000000#36 = .reserved 0b0000#4 ∧ decode 0xB00000000#36 = .reserved 0b1011#4 ∧
    decode 0xF12345678#36 = .reserved 0b1111#4 := by decide

/-- A table word of 40 bits holds the 36 of the command; a bit above them is no command's (R74). -/
theorem test_decodeTableWord :
    decodeTableWord 40 0x400000050 = some (.advance 80) ∧ decodeTableWord 40 0x1100000000 = none ∧
    decodeTableWord 40 0xB00000000 = none := by decide

/-! ## Well-formedness: for each check, a term on its boundary and an ill-formed one that it refuses -/

theorem test_wf_advance : (Instr.advance 4294967295).wf = true ∧ (Instr.advance 4294967296).wf = false := by decide
theorem test_wf_line_number : (AsmLine.advance 4294967296).wf = false ∧ (AsmLine.tick 4294967296).wf = false ∧
    (AsmLine.tick 4294967295).wf = true := by decide
theorem test_wf_line_byte : (AsmLine.setly 255).wf = true ∧ (AsmLine.setly 256).wf = false ∧
    (AsmLine.wlcdc 256).wf = false ∧ (AsmLine.wlyc 256).wf = false ∧ (AsmLine.wstat 256).wf = false ∧
    (AsmLine.wly 256).wf = false ∧ (AsmLine.newline 256).wf = false := by decide
theorem test_wf_line_lcdon : (AsmLine.lcdon 0x80).wf = true ∧ (AsmLine.lcdon 0x7F).wf = false ∧
    (AsmLine.lcdon 384).wf = false := by decide
theorem test_wf_line_lcdoff : (AsmLine.lcdoff 0x7F).wf = true ∧ (AsmLine.lcdoff 0x80).wf = false ∧
    (AsmLine.lcdoff 256).wf = false := by decide

/-! ## The assembly language (R80, R81) -/

/-- Step 1 of Program 1, and R82's `RD LY`. -/
theorem test_assemble : assemble ["NEWLINE 6".toList, "; a comment".toList, "RD   LY ; R82".toList] =
    some [0x500000006#36, 0x300000000#36, 0x100000000#36, 0xA00000002#36] := by decide
theorem test_assemble_hexadecimal : readLine "WSTAT 0x4F".toList = .line (.wstat 0x4F) ∧
    readLine "WSTAT 79".toList = .line (.wstat 79) ∧ readLine "wstat 79".toList = .refused ∧
    readLine "WSTAT 0x".toList = .refused ∧ readLine "UPDATE 1".toList = .refused := by decide
theorem test_assemble_refuses : assemble ["LCDON 0x11".toList] = none ∧ assemble ["WLYC 256".toList] = none := by
  decide

/-! ## Commands (at most two tests each) -/

/-- V-MUX-3, 4, 6, 7, 9, 13, 16: the windows' boundaries. -/
theorem test_update_windows :
    [st 0 0x80 0x00 0 0xFF 16,
     st 0 0x80 0x00 0 0xFF 15,
     st 0 0x80 0x00 0 0xFF 8,
     st 0 0x80 0x00 0 0xFF 7,
     st 0 0x80 0x00 0 0xFF (-1),
     st 0 0x80 0x00 144 0xFF 20,
     st 0 0x80 0x00 255 0xFF 10].map (fun s => got shown (exec .update s)) =
    [some (0x02#8, 0#8, 16, []),
     some (0x03#8, 0#8, 15, []),
     some (0x03#8, 0#8, 8, []),
     some (0x00#8, 0#8, 7, []),
     some (0x00#8, 0#8, -1, []),
     some (0x01#8, 144#8, 20, []),
     some (0x05#8, 255#8, 10, [])] := by decide

/-- Scenario B's counter-case, V-EDGE-5, 8, 9 and 12 (both tags), V-LYC-5 and V-LYC-7, scenario A's second line. -/
theorem test_update_requests :
    [st 0 0x80 0x52 144 144 20,
     st 0 0x80 0x08 1 0xFF 3,
     st 2 0x80 0x08 1 0xFF 3,
     st 2 0x80 0x0A 1 0xFF 5,
     st 0 0x80 0x0A 1 0xFF 5,
     st 0 0x80 0x50 144 144 0,
     st 0 0x00 0x46 77 77 5,
     st 0 0x00 0xF6 100 0 123].map (fun s => got shown (exec .update s)) =
    [some (0x55#8, 144#8, 20, [.mode, .lyc]),
     some (0x08#8, 1#8, 3, []),
     some (0x08#8, 1#8, 3, [.mode]),
     some (0x08#8, 1#8, 5, []),
     some (0x08#8, 1#8, 5, [.mode]),
     some (0x55#8, 144#8, 0, [.mode, .lyc]),
     some (0x45#8, 0#8, 0, []),
     some (0xF5#8, 0#8, 0, [])] := by decide

/-- V-QEN-1 to V-QEN-5. -/
theorem test_qen : [0x00#8, 0x80#8, 0x7F#8, 0xFF#8, 0x91#8].map (fun c => got State.ret (exec .qen (st 0 c 0 0 0 0))) =
    [false, true, false, true, true].map (fun b => some (some (.bit b))) := by decide

/-- V-ENV-1. -/
theorem test_reload : got shown (exec .reload (st 0 0 0 0 0 (-3))) = some (0#8, 0#8, 20, []) := by decide

/-- V-ENV-2 to V-ENV-5: below zero, nothing, and the two wraps. -/
theorem test_advance :
    [(8, 5), (0, 5), (1, -2147483648), (4294967295, 0)].map
      (fun nb : Nat × Int => got shown (exec (.advance nb.1) (st 0 0 0 0 0 nb.2))) =
    [-3, 5, 2147483647, 1].map (fun b => some (0#8, 0#8, b, [])) := by decide

/-- V-ENV-6. -/
theorem test_setly : got shown (exec (.setly 144) (st 0 0x80 0x10 143 0 0)) = some (0x10#8, 144#8, 0, []) := by decide

/-- V-ENV-7. -/
theorem test_wlcdc : got State.lcdc (exec (.wlcdc 0x91) (st 0 0 0x42 0 0 0)) = some 0x91#8 ∧
    got shown (exec (.wlcdc 0x91) (st 0 0 0x42 0 0 0)) = some (0x42#8, 0#8, 0, []) := by decide

/-- V-ENV-8: bit 2 is stale. -/
theorem test_wlyc : got State.lyc (exec (.wlyc 77) (st 0 0x80 0x04 0 0 0)) = some 77#8 ∧
    got State.stat (exec (.wlyc 77) (st 0 0x80 0x04 0 0 0)) = some 0x04#8 := by decide

/-- V-ENV-9 and V-ENV-10. -/
theorem test_wstat :
    got shown (exec (.wstat 0x47) (st 0 0x80 0x02 10 10 20)) = some (0x46#8, 10#8, 20, [.lyc]) ∧
    got shown (exec (.wstat 0xFF) (st 0 0x00 0x03 30 0 9)) = some (0xF9#8, 0#8, 0, []) := by decide

/-- V-ENV-11 and V-ENV-12, `LY_WRITE_FN(old, v) = v`. -/
theorem test_wly :
    got shown (exec (.wly 144) (st 0 0x80 0x10 143 0xFF 0)) = some (0x11#8, 144#8, 0, [.mode]) ∧
    got shown (exec (.wly 50) (st 0 0x00 0x00 3 0 0)) = some (0x01#8, 0#8, 0, []) := by decide

/-- Another `LY_WRITE_FN`: one that stores 0 for the old LY 143 and the written 144 (R158). -/
theorem test_wly_exception : got State.ly (exec (.wly 144)
    { st 0 0x80 0x10 143 0xFF 0 with cfg := { cfgT 0 with lyWrite := ⟨[(143, 144, 0)]⟩ } }) = some 0#8 := by decide

/-- V-ENV-13. -/
theorem test_rd : [Reg.lcdc, .stat, .ly, .lyc].map (fun r => got State.ret (exec (.rd r) (st 0 0x91 0x85 7 9 0))) =
    [0x91#8, 0x85#8, 7#8, 9#8].map (fun v => some (some (.byte v))) := by decide

/-- V-ENC-7: a reserved word changes the mark and what was returned, and the next command is performed. -/
theorem test_reserved : step { st 0 0x80 0x42 1 2 3 with pending := [0x000000000#36, 0x200000000#36] } =
    .next { st 0 0x80 0x42 1 2 3 with pending := [0x200000000#36], refused := true, ret := none } := rfl

/-- The first step after reset performs the table word put before it. -/
theorem test_withFetchWord : got State.lcdc (step (State.reset.withFetchWord 40 0x600000091)) = some 0x91#8 ∧
    got State.stat (step (State.reset.withFetchWord 40 0x1FFFFFFFF)) = some 0x01#8 := by decide

/-! ## Witnesses: the hypotheses of each statement can be met -/

theorem witness_cfgT_ok : (cfgT 0).Ok ∧ (cfgT 2).Ok := by decide

theorem witness_DecodeOfEncode : (Instr.advance 4294967295).wf = true := by decide

theorem witness_EncodeOfDecode : decode 0x6FFFFFF91#36 = .instr (.wlcdc 0x91#8) ∧
    0x600000091#36 &&& commandWord 0xF#4 (usedOperandBits (.wlcdc 0x91#8)) = encode (.wlcdc 0x91#8) := by decide

theorem witness_OpcodeMapAndOperands :
    (0xFFFFFFFC#32).extractLsb' 0 2 = 0b00#2 ∧ (0xFFFFFFFD#32).extractLsb' 0 2 = 0b01#2 ∧
    (0xFFFFFFFE#32).extractLsb' 0 2 = 0b10#2 ∧ (0xFFFFFFFF#32).extractLsb' 0 2 = 0b11#2 ∧
    ReservedOp 0b0000#4 ∧ ReservedOp 0b1011#4 ∧ ReservedOp 0b1111#4 ∧ ¬ ReservedOp 0b0001#4 ∧ ¬ ReservedOp 0b1010#4 ∧
    decode 0xA00000002#36 = .instr (.rd .ly) ∧
    0xAFFFFFFFE#36 &&& commandWord 0xF#4 (usedOperandBits (.rd .ly)) =
      0xA00000002#36 &&& commandWord 0xF#4 (usedOperandBits (.rd .ly)) := by decide

theorem witness_AssemblerExpandsPseudoInstructions :
    255 ≤ 255 ∧ (AsmLine.newline 255).wf = true ∧ (AsmLine.newline 256).wf = false := by decide

theorem witness_StepRunsDecodedCommand :
    ({ st 0 0 0 0 0 0 with pending := [0x100000000#36] } : State).pending = 0x100000000#36 :: [] ∧
    decode 0x100000000#36 = .instr .update := by decide

theorem witness_NoCommandNoChange : (st 0 0 0 0 0 0).pending = [] := rfl

/-- A run of two steps, the second without a command: for CommandsInIssueOrder, ConfigurationNeverChanges and
RequestLogOnlyGrows, and with the mark clear at its start for MarkClearIffNoReservedCommand. -/
theorem witness_runs : ({ st 0 0x80 0 0 0 20 with pending := [0x100000000#36] } : State).refused = false ∧
    ∃ t, Runs 2 { st 0 0x80 0 0 0 20 with pending := [0x100000000#36] } t := ⟨rfl, _, rfl⟩

theorem witness_ReservedCommandRefused :
    ReservedOp 0b1011#4 ∧ ({ st 0 0 0 0 0 0 with pending := [0xB00000007#36] } : State).pending =
      commandWord 0b1011#4 7#32 :: [] ∧ decode 0xB00000007#36 = .reserved 0b1011#4 := by decide

theorem witness_ReservedCommandRefused_sticky : ({ st 0 0 0 0 0 0 with refused := true } : State).refused = true ∧
    ∃ t, Runs 1 { st 0 0 0 0 0 0 with refused := true } t := ⟨rfl, _, rfl⟩

/-- `LCDC[7]` clear: for DisplayOffUpdate and the clauses about the display-off path. -/
theorem witness_display_off : (st 0 0x7F 0xFE 9 0 (-4)).lcdc.getLsbD 7 = false := by decide

/-- `LCDC[7]` set: for the statements about the enabled path. -/
theorem witness_display_on : (st 0 0x80 0 0 0 0).lcdc.getLsbD 7 = true := by decide

/-- MuxIsTotalFunction and ModeWindows: admissible parameters, and each window at its boundaries. -/
theorem witness_windows : (cfgT 0).Ok ∧ 144 ≤ (144#8).toNat ∧ (143#8).toNat < 144 ∧
    (cfgT 0).tOam ≤ (16#32).toInt ∧
    ((cfgT 0).tTransfer ≤ (15#32).toInt ∧ (15#32).toInt < (cfgT 0).tOam) ∧
    ((cfgT 0).tTransfer ≤ (8#32).toInt ∧ (8#32).toInt < (cfgT 0).tOam) ∧
    (7#32).toInt < (cfgT 0).tTransfer := by decide

theorem witness_ModeRequestIffModeChanged : (st 0 0x80 0 0 0 0).lcdc.getLsbD 7 = true ∧
    (st 0 0x80 0 0 0 0).cfg.hblankEdgeTag = 0#2 := by decide

theorem witness_TransferNeverRequests : let s := st 0 0x80 0x7A 143 0 8
    s.lcdc.getLsbD 7 = true ∧ s.ly.toNat < 144 ∧ s.cfg.tTransfer ≤ s.budget.toInt ∧ s.budget.toInt < s.cfg.tOam := by
  decide

theorem witness_QuirkTagRequests :
    (let s := st 2 0x80 0x0A 1 0xFF 7
     s.lcdc.getLsbD 7 = true ∧ s.cfg.hblankEdgeTag = 2#2 ∧ modeOf s = .hblank ∧ s.stat.getLsbD 3 = true) ∧
    (let s := st 2 0x80 0x20 1 0xFF 16
     s.lcdc.getLsbD 7 = true ∧ s.cfg.hblankEdgeTag = 2#2 ∧ modeOf s ≠ .hblank ∧ modeOf s = .oamSearch ∧
       s.stat.getLsbD 5 = true ∧ s.stat.extractLsb' 0 2 = 0b00#2) := by decide

theorem witness_EnableBitsPreserved :
    (∃ t, Runs 1 { st 0 0x80 0 0 0 20 with pending := [0x100000000#36] } t) ∧
    NoWstatWithin 1 { st 0 0x80 0 0 0 20 with pending := [0x100000000#36] } := by
  refine ⟨⟨_, rfl⟩, ?_⟩
  intro w hw v
  have : w = 0x100000000#36 := by simpa [NoWstatWithin] using hw
  have h2 : decode 0x100000000#36 = .instr .update := by decide
  rw [this, h2]
  simp

/-- Two UPDATEs in OAM-search, the second inside a WSTAT, with an ADVANCE between them. -/
theorem witness_EdgeTriggeredOnce : let s := { st 0 0x80 0x20 0 0xFF 20 with pending := [0x400000001#36] }
    s.cfg.hblankEdgeTag = 0#2 ∧ performsUpdate .update = true ∧ performsUpdate (.wstat 0x20) = true ∧
      ∃ t u v, exec .update s = .next t ∧ Runs 1 t u ∧ NoUpdateWithin 1 t ∧
        exec (.wstat 0x20) u = .next v ∧ v.stat.extractLsb' 0 2 = t.stat.extractLsb' 0 2 := by
  refine ⟨rfl, rfl, rfl, _, _, _, rfl, rfl, ?_, rfl, by decide⟩
  intro w hw i hi
  have : w = 0x400000001#36 := by
    have h2 : w ∈ [0x400000001#36] := hw
    simpa using h2
  subst this
  have h3 : decode 0x400000001#36 = .instr (.advance 1) := by decide
  rw [h3] at hi
  cases hi
  rfl

/-- A step on a reserved word. -/
theorem witness_StepWithoutUpdateKeepsModeAndRequests :
    let s := { st 0 0x80 0x22 0 0xFF 20 with pending := [0xB00000000#36] }
    (∃ t, step s = .next t) ∧ NoUpdateWithin 1 s := by
  refine ⟨⟨_, rfl⟩, ?_⟩
  intro w hw i hi
  have hm : w ∈ [0xB00000000#36] := hw
  have hd : decode 0xB00000000#36 = .reserved 0b1011#4 := by decide
  rw [List.mem_singleton.1 hm, hd] at hi
  cases hi

/-- One command of each of the three kinds. -/
theorem witness_LevelRequestEveryUpdate : ∃ is : List Instr,
    let s := { st 0 0x80 0x46 77 77 20 with pending := is.map encode ++ [0x200000000#36] }
    is = [.update, .wstat 0x40, .wly 77] ∧ s.lcdc.getLsbD 7 = true ∧ s.ly = s.lyc ∧ s.stat.getLsbD 6 = true ∧
      ∀ i ∈ is, i = .update ∨ (∃ v, i = .wstat v ∧ v.getLsbD 6 = true) ∨
        (∃ v, i = .wly v ∧ lyStored s.cfg.lyWrite s.ly v = s.lyc) := by
  refine ⟨_, rfl, by decide, rfl, by decide, ?_⟩
  intro i hi
  have hm : i = .update ∨ i = .wstat 0x40 ∨ i = .wly 77 := by simpa using hi
  rcases hm with rfl | rfl | rfl
  · exact .inl rfl
  · exact .inr (.inl ⟨_, rfl, by decide⟩)
  · exact .inr (.inr ⟨_, rfl, by decide⟩)

theorem witness_DisabledScanStaysFrozen :
    let s := { st 0 0x7F 0x46 77 77 20 with pending := [encode .update, encode .update, 0x200000000#36] }
    s.lcdc.getLsbD 7 = false ∧ s.pending = List.replicate (1 + 1) (encode .update) ++ [0x200000000#36] := by decide

theorem witness_UpdatingCommandsWhileDisabled : performsUpdate .update = true ∧ performsUpdate (.wstat 0xFF) = true ∧
    performsUpdate (.wly 50) = true ∧ (st 0 0x7F 0x46 77 77 20).lcdc.getLsbD 7 = false := by decide

theorem witness_EnableAfterDisplayOff : (st 2 0x11 0x28 42 0 12).cfg.Ok ∧
    (st 2 0x11 0x28 42 0 12).lcdc.getLsbD 7 = false ∧ (0x91#8).getLsbD 7 = true := by decide

theorem witness_SkippedTransferIsStillAnEdge : let s := st 0 0x80 0x08 143 0xFF 16
    s.cfg.Ok ∧ s.cfg.hblankEdgeTag = 0#2 ∧ s.lcdc.getLsbD 7 = true ∧ s.ly.toNat < 144 ∧
    s.cfg.tOam ≤ s.budget.toInt ∧ s.budget.toInt - (9 : Nat) < s.cfg.tTransfer ∧
    -(2 ^ 31) ≤ s.budget.toInt - (9 : Nat) ∧ s.stat.getLsbD 3 = true := by decide

theorem witness_ReloadLoadsLineTotal : (st 0 0x80 0 143 0 (-3)).cfg.Ok ∧
    (st 0 0x80 0 143 0 (-3)).lcdc.getLsbD 7 = true ∧ (st 0 0x80 0 143 0 (-3)).ly.toNat < 144 := by decide

/-- AdvanceSubtractsModulo at the edge of its two ranges. -/
theorem witness_AdvanceSubtractsModulo :
    -(2 ^ 31) ≤ (st 0 0 0 0 0 (-2147483647)).budget.toInt - (1 : Nat) ∧ 1 < 2 ^ 32 ∧
    (st 0 0 0 0 0 (-2147483648)).budget.toInt - (1 : Nat) < -(2 ^ 31) := by decide

theorem witness_AdvanceWithinLineNeverWraps :
    let s := { st 0 0 0 0 0 0 with pending := [encode .reload, encode (.advance 8), encode (.advance 12)] }
    s.cfg.Ok ∧ (([8, 12] : List Nat).sum : Int) ≤ s.cfg.tLine ∧
      s.pending = encode .reload :: ([8, 12] : List Nat).map (fun n => encode (.advance n)) ++ [] := by decide

theorem witness_WlcdcStoresControl : (0x7F#8).getLsbD 7 = false := by decide

theorem witness_WstatStoresEnablesThenUpdates :
    (let s := st 0 0x80 0x02 0 1 16
     s.lcdc.getLsbD 7 = true ∧ s.cfg.hblankEdgeTag = 0#2 ∧ s.stat.extractLsb' 0 2 = modeCode (modeOf s)) ∧
    (let s := st 0 0x80 0x02 10 10 16
     s.lcdc.getLsbD 7 = true ∧ s.ly = s.lyc ∧ (0x40#8).getLsbD 6 = true) := by decide

theorem witness_OnlyUpdatesRequest : performsUpdate (.setly 144) = false ∧
    ∃ t, exec (.setly 144) (st 0 0x80 0x10 143 144 0) = .next t := ⟨rfl, _, rfl⟩

/-- StatWriteOwnership, RegisterWriters, CommandReturns and MemoryFrame: QEN is none of the named writers, and UPDATE on
an enabled display is neither a SETLY nor a WLY. -/
theorem witness_frames : performsUpdate .qen = false ∧ (∀ v, Instr.qen ≠ .wstat v) ∧ (∀ v, Instr.qen ≠ .wlcdc v) ∧
    (∀ v, Instr.qen ≠ .wlyc v) ∧ (∀ v, Instr.update ≠ .setly v) ∧ (∀ v, Instr.update ≠ .wly v) ∧
    Instr.update ≠ .reload ∧ (∀ n, Instr.update ≠ .advance n) ∧ performsUpdate .update = true ∧
    (st 0 0x80 0 0 0 0).lcdc.getLsbD 7 = true ∧ (∀ r, Instr.update ≠ .rd r) ∧
    0x1000#16 ≠ (cfgT 0).addrStat ∧ 0x1000#16 ≠ (cfgT 0).addrLy ∧ 0x1000#16 ≠ (cfgT 0).addrLyc ∧
    0x1001#16 ≠ (cfgT 0).addrLcdc := by
  refine ⟨rfl, ?_, ?_, ?_, ?_, ?_, ?_, ?_, rfl, by decide, ?_, by decide, by decide, by decide, by decide⟩ <;> simp

theorem witness_AccessPaths : (st 0 0 0 0 0 0).cfg.Ok ∧
    0x0FFF#16 ∉ [(cfgT 0).addrLcdc, (cfgT 0).addrStat, (cfgT 0).addrLy, (cfgT 0).addrLyc] := by decide

theorem witness_CoincidenceFlagFreshness : CoincidenceFresh (st 0 0x80 0x04 10 10 0) ∧
    ¬ CoincidenceFresh (st 0 0x80 0x00 10 10 0) := by decide

theorem witness_LineCounterStaysInRange : LyInRange (st 0 0x80 0 153 0 0) ∧ ¬ LyInRange (st 0 0x80 0 154 0 0) ∧
    keepsLyInRange (st 0 0x80 0 153 0 0) (.setly 153) = true ∧
    keepsLyInRange (st 0 0x80 0 153 0 0) (.setly 154) = false ∧
    keepsLyInRange (st 0 0x80 0 153 0 0) (.wly 153) = true := by decide

theorem witness_StepKeepsInv : Inv { st 0 0x80 0x20 0 0xFF 20 with pending := [0x100000000#36] } ∧
    ∃ t, step { st 0 0x80 0x20 0 0xFF 20 with pending := [0x100000000#36] } = .next t := ⟨by decide, _, rfl⟩

theorem witness_LcdcLowBitsHaveNoEffect : AgreeButLcdcLow (st 0 0x80 1 2 3 4) (st 0 0xFF 1 2 3 4) ∧
    Instr.qen ≠ .rd .lcdc := by decide

theorem witness_AddressValuesHaveNoEffect : AgreeButAddresses (cfgT 0) { cfgT 0 with addrLy := 0xFF44#16 } := by decide

end Sys2Proof.Tests
end

section
/-! SUPPORT. What one step does to the parameters and to the request log, and the invariant at power-on and along every
step (spec/00_scope.md rule R6; spec/10_state.md rules R32, R34, R35). -/

namespace Sys2Proof.Machine

/-! ## What a step does to the two fields that the invariant reads -/

/-- No step writes the parameters (R35). -/
theorem step_cfg (s t : State) (h : step s = .next t) : t.cfg = s.cfg := by
  obtain ⟨-, rfl⟩ | ⟨w, rest, i, -, -, he⟩ | ⟨w, rest, op, -, -, rfl⟩ := step_cases s t h
  · rfl
  · exact exec_cfg i { s with pending := rest } t he
  · exact refuse_cfg { s with pending := rest }

/-- A step appends to the log what one UPDATE can append, each event numbered on from the log's length (R32, R128). -/
theorem step_irqlog (s t : State) (h : step s = .next t) :
    ∃ m c, t.irqlog = s.irqlog ++ requestsFrom s.irqlog.length m c := by
  obtain ⟨-, rfl⟩ | ⟨w, rest, i, -, -, he⟩ | ⟨w, rest, op, -, -, rfl⟩ := step_cases s t h
  · exact ⟨false, false, by simp [requestsFrom_none]⟩
  · exact exec_irqlog i { s with pending := rest } t he
  · exact ⟨false, false, by simp [requestsFrom_none]⟩

/-! ## The numbering of the log -/

theorem logNumbered_requestIf (s : State) (p : Bool) (src : ReqSrc) (h : LogNumbered s.irqlog) :
    LogNumbered (s.requestIf p src).irqlog := by
  cases p with
  | false => exact h
  | true => exact logNumbered_request s src h

/-- What is appended is what the two gates of an UPDATE request one after the other, so each event is numbered in its
turn (R32). -/
theorem logNumbered_append_requestsFrom (s : State) (m c : Bool) (h : LogNumbered s.irqlog) :
    LogNumbered (s.irqlog ++ requestsFrom s.irqlog.length m c) := by
  rw [← requestIf_requestIf_irqlog]
  exact logNumbered_requestIf _ c .lyc (logNumbered_requestIf s m .mode h)

/-! ## Power-on -/

theorem inv_powerOn (c : Params) (init : RegGroup) (hc : c.Ok) : Inv (State.powerOn c init) := ⟨hc, rfl⟩

/-- R6 admits the parameters at reset: the chosen ones are admissible, and so is the tag 0 put in place of theirs. -/
theorem config_params_ok : Config.params.Ok := by
  obtain ⟨h0, h1, h2, h3, hnodup, -⟩ := Config.chosen.ok
  exact ⟨h0, h1, h2, h3, hnodup, .inl rfl⟩

/-! ## The two statements -/

/-- Settles O54: a step leaves the parameters alone, and appends only events numbered on from the log's length. -/
theorem stepKeepsInv : Obligations.StepKeepsInv := by
  unfold Obligations.StepKeepsInv
  rintro s t ⟨hcfg, hlog⟩ hstep
  obtain ⟨m, c, ht⟩ := step_irqlog s t hstep
  constructor
  · rw [step_cfg s t hstep]
    exact hcfg
  · rw [ht]
    exact logNumbered_append_requestsFrom s m c hlog

/-- Settles O55: power-on takes its parameters as they are given and begins with an empty log; reset is the power-on with
the machine's own parameters. -/
theorem powerOnMeetsInv : Obligations.PowerOnMeetsInv := by
  unfold Obligations.PowerOnMeetsInv
  exact ⟨inv_powerOn, inv_powerOn Config.params Config.init config_params_ok⟩

end Sys2Proof.Machine
end

section
/-! SUPPORT. UPDATE and every command as one equation: the result of UPDATE on each path (spec/41_update.md rule R130);
what a command stores by itself and what it returns (spec/30_encoding.md rule R84, spec/42_environment.md); the three
kinds of step (spec/10_state.md rule R20). -/

namespace Sys2Proof.Machine

/-! ## UPDATE as one equation -/

/-- Whether an enabled UPDATE of this state makes a mode request (R122). -/
def modeGate (s : State) : Bool := modeEdge s.cfg (modeOf s) (modeEnable s.stat (modeOf s)) (modeField s.stat)

/-- Whether an enabled UPDATE of this state makes a coincidence request (R127). -/
def lycGate (s : State) : Bool := s.ly == s.lyc && lycEnable s.stat

/-- The enabled path writes STAT and appends to the log, and nothing else. -/
theorem updateEnabled_eq (s : State) : updateEnabled s =
    { s with
      stat := withCoincidence (withMode s.stat (modeOf s)) (s.ly == s.lyc)
      irqlog := s.irqlog ++ requestsFrom s.irqlog.length (modeGate s) (lycGate s) } := by
  have hlog : (updateEnabled s).irqlog = s.irqlog ++ requestsFrom s.irqlog.length (modeGate s) (lycGate s) :=
    (updateEnabled_irqlog s).trans (requestIf_requestIf_irqlog s _ _)
  apply State.eq_of_fields
  case h1 => exact updateEnabled_stat s
  case h5 => exact hlog
  all_goals simp [updateEnabled]

/-- The display-off path writes STAT, LY and the budget, and nothing else. -/
theorem updateDisplayOff_eq (s : State) :
    updateDisplayOff s = { s with stat := withMode s.stat .vblank, ly := 0#8, budget := 0#32 } := rfl

theorem update_of_enabled (s : State) (h : s.lcdc.getLsbD 7 = true) : update s = updateEnabled s := if_pos h

theorem update_of_disabled (s : State) (h : s.lcdc.getLsbD 7 = false) : update s = updateDisplayOff s :=
  if_neg (by simpa [lcdEn, bit] using h)

/-! ## A command as one equation -/

/-- The state with what the command stores by itself, before the UPDATE that it may perform (R152 to R158). -/
def afterStore (i : Instr) (s : State) : State :=
  match i with
  | .update => s
  | .qen => s
  | .reload => s.setBudget (lineTotal s.cfg)
  | .advance n => s.setBudget (budgetAfter s.budget n)
  | .setly v => s.rawWrite .ly v
  | .wlcdc v => s.setReg .lcdc v
  | .wlyc v => s.setReg .lyc v
  | .wstat v => s.setReg .stat (storedStat s.stat v)
  | .wly v => s.setReg .ly (lyStored s.cfg.lyWrite s.ly v)
  | .rd _ => s

/-- What a command returns (R84): the query and the register read return something, every other command nothing. -/
def returnOf (i : Instr) (s : State) : Option Ret :=
  match i with
  | .qen => some (.bit (bit s.lcdc 7))
  | .rd sel => some (.byte (s.readReg sel))
  | .update => none
  | .reload => none
  | .advance _ => none
  | .setly _ => none
  | .wlcdc _ => none
  | .wlyc _ => none
  | .wstat _ => none
  | .wly _ => none

/-- The state in which a command ends: its own store, then its UPDATE if it performs one, then its return. -/
def afterCommand (i : Instr) (s : State) : State :=
  (if performsUpdate i then update (afterStore i s) else afterStore i s).returning (returnOf i s)

/-- Every command ends in a next state, and which one. -/
theorem exec_eq (i : Instr) (s : State) : exec i s = .next (afterCommand i s) := by cases i <;> rfl

theorem afterCommand_of_update {i : Instr} (h : performsUpdate i = true) (s : State) :
    afterCommand i s = (update (afterStore i s)).returning (returnOf i s) := by simp [afterCommand, h]

theorem afterCommand_of_noUpdate {i : Instr} (h : performsUpdate i = false) (s : State) :
    afterCommand i s = (afterStore i s).returning (returnOf i s) := by simp [afterCommand, h]

@[simp] theorem afterCommand_ret (i : Instr) (s : State) : (afterCommand i s).ret = returnOf i s := rfl

/-! ## What a command's own store leaves alone -/

@[simp] theorem afterStore_irqlog (i : Instr) (s : State) : (afterStore i s).irqlog = s.irqlog := by cases i <;> rfl

theorem afterStore_lcdc {i : Instr} (h : ∀ v, i ≠ .wlcdc v) (s : State) : (afterStore i s).lcdc = s.lcdc := by
  cases i
  case wlcdc v => exact absurd rfl (h v)
  all_goals rfl

theorem afterStore_lyc {i : Instr} (h : ∀ v, i ≠ .wlyc v) (s : State) : (afterStore i s).lyc = s.lyc := by
  cases i
  case wlyc v => exact absurd rfl (h v)
  all_goals rfl

theorem afterStore_ly {i : Instr} (hs : ∀ v, i ≠ .setly v) (hw : ∀ v, i ≠ .wly v) (s : State) :
    (afterStore i s).ly = s.ly := by
  cases i
  case setly v => exact absurd rfl (hs v)
  case wly v => exact absurd rfl (hw v)
  all_goals rfl

theorem afterStore_budget {i : Instr} (hr : i ≠ .reload) (ha : ∀ n, i ≠ .advance n) (s : State) :
    (afterStore i s).budget = s.budget := by
  cases i
  case reload => exact absurd rfl hr
  case advance n => exact absurd rfl (ha n)
  all_goals rfl

theorem afterStore_stat {i : Instr} (h : ∀ v, i ≠ .wstat v) (s : State) : (afterStore i s).stat = s.stat := by
  cases i
  case wstat v => exact absurd rfl (h v)
  all_goals rfl

/-! ## Which commands perform an UPDATE -/

theorem ne_wlcdc_of_update {i : Instr} (h : performsUpdate i = true) (v : Byte) : i ≠ .wlcdc v := by
  rintro rfl; cases h

theorem ne_wstat_of_noUpdate {i : Instr} (h : performsUpdate i = false) (v : Byte) : i ≠ .wstat v := by
  rintro rfl; cases h

theorem ne_wly_of_noUpdate {i : Instr} (h : performsUpdate i = false) (v : Byte) : i ≠ .wly v := by
  rintro rfl; cases h

/-- The store before an UPDATE leaves the path that the UPDATE takes as it was. -/
theorem displayEnable_afterStore {i : Instr} (h : performsUpdate i = true) (s : State) :
    (afterStore i s).lcdc.getLsbD 7 = s.lcdc.getLsbD 7 := by
  rw [afterStore_lcdc (ne_wlcdc_of_update h)]

/-! ## The three kinds of step -/

theorem step_of_nil {s : State} (h : s.pending = []) : step s = .next s := by
  simp [step, (nextCommand_eq_none s).2 h]

theorem step_of_instr {s : State} {w : CmdWord} {rest : List CmdWord} {i : Instr} (hp : s.pending = w :: rest)
    (hd : decode w = .instr i) : step s = exec i { s with pending := rest } := by
  have hn : s.nextCommand = some (w, { s with pending := rest }) := (nextCommand_eq_some ..).2 ⟨rest, hp, rfl⟩
  simp [step, hn, hd]

theorem step_of_reserved {s : State} {w : CmdWord} {rest : List CmdWord} {op : BitVec 4} (hp : s.pending = w :: rest)
    (hd : decode w = .reserved op) : step s = .next ({ s with pending := rest } : State).refuse := by
  have hn : s.nextCommand = some (w, { s with pending := rest }) := (nextCommand_eq_some ..).2 ⟨rest, hp, rfl⟩
  simp [step, hn, hd]

end Sys2Proof.Machine
end

section
/-! SUPPORT. The state and its steps (spec/10_state.md): power-on, what each run keeps, and the steps that perform no
UPDATE. -/

namespace Sys2Proof.Machine

/-- Settles O6: the word is the next command of the stream, and it decodes to the command. -/
theorem stepRunsDecodedCommand : Obligations.StepRunsDecodedCommand := by
  unfold Obligations.StepRunsDecodedCommand
  intro s w rest i hp hd
  exact step_of_instr hp hd

/-- Settles O56: power-on copies INIT and the parameters into the fields. -/
theorem powerOnState : Obligations.PowerOnState := by
  unfold Obligations.PowerOnState
  intro c init
  exact ⟨rfl, rfl, rfl, rfl, rfl, rfl, rfl, rfl⟩

/-- Settles O52, by induction on the run: no step writes the parameters. -/
theorem configurationNeverChanges : Obligations.ConfigurationNeverChanges := by
  unfold Obligations.ConfigurationNeverChanges
  refine runs_induction (fun _ s t => t.cfg = s.cfg) (fun _ => rfl) ?_
  intro k s u t hstep _ ih
  exact ih.trans (step_cfg s u hstep)

/-- One step keeps the log as a beginning and appends at most two events (R32, R128). -/
theorem step_irqlog_grows (s t : State) (h : step s = .next t) :
    s.irqlog <+: t.irqlog ∧ t.irqlog.length ≤ s.irqlog.length + 2 := by
  obtain ⟨m, c, ht⟩ := step_irqlog s t h
  rw [ht, List.length_append]
  exact ⟨List.prefix_append .., Nat.add_le_add_left (requestsFrom_length_le ..) _⟩

/-- Settles O53, by induction on the run: a step appends at most two events. -/
theorem requestLogOnlyGrows : Obligations.RequestLogOnlyGrows := by
  unfold Obligations.RequestLogOnlyGrows
  refine runs_induction (fun k s t => s.irqlog <+: t.irqlog ∧ t.irqlog.length ≤ s.irqlog.length + 2 * k)
    (fun s => ⟨List.prefix_rfl, le_rfl⟩) ?_
  rintro k s u t hstep - ⟨hprefix, hlen⟩
  obtain ⟨hprefix', hlen'⟩ := step_irqlog_grows s u hstep
  exact ⟨hprefix'.trans hprefix, by omega⟩

/-- A command without an UPDATE writes neither STAT nor the log (R25, R151). -/
theorem afterCommand_stat_of_noUpdate {i : Instr} (h : performsUpdate i = false) (s : State) :
    (afterCommand i s).stat = s.stat := by
  rw [afterCommand_of_noUpdate h]
  exact afterStore_stat (ne_wstat_of_noUpdate h) s

theorem afterCommand_irqlog_of_noUpdate {i : Instr} (h : performsUpdate i = false) (s : State) :
    (afterCommand i s).irqlog = s.irqlog := by
  rw [afterCommand_of_noUpdate h]
  exact afterStore_irqlog i s

/-- A step that performs no UPDATE writes neither STAT nor the log. -/
theorem step_stat_irqlog_of_noUpdate (s t : State) (h : step s = .next t) (hn : NoUpdateWithin 1 s) :
    t.stat = s.stat ∧ t.irqlog = s.irqlog := by
  obtain ⟨-, rfl⟩ | ⟨w, rest, i, hp, hd, he⟩ | ⟨w, rest, op, -, -, rfl⟩ := step_cases s t h
  · exact ⟨rfl, rfl⟩
  · have hi : performsUpdate i = false := hn w (by simp [hp]) i hd
    rw [exec_eq] at he
    cases he
    exact ⟨afterCommand_stat_of_noUpdate hi _, afterCommand_irqlog_of_noUpdate hi _⟩
  · exact ⟨rfl, rfl⟩

/-- Settles O28: such a step leaves STAT and the log as they were. -/
theorem stepWithoutUpdateKeepsModeAndRequests : Obligations.StepWithoutUpdateKeepsModeAndRequests := by
  unfold Obligations.StepWithoutUpdateKeepsModeAndRequests
  intro s t hstep hn
  obtain ⟨hstat, hlog⟩ := step_stat_irqlog_of_noUpdate s t hstep hn
  rw [hstat, hlog]
  exact ⟨rfl, rfl, rfl⟩

end Sys2Proof.Machine
end

section
/-! SUPPORT. Which command writes which register, the coincidence flag, and the range of LY (spec/10_state.md rules R23
to R30, R35; spec/42_environment.md rule R160). -/

namespace Sys2Proof.Machine

/-! ## The bits of STAT that each store keeps -/

theorem upperFive_withMode (v : Byte) (m : Mode) : (withMode v m).extractLsb' 3 5 = v.extractLsb' 3 5 := by
  revert v; cases m <;> decide

theorem coincidence_withMode (v : Byte) (m : Mode) : (withMode v m).getLsbD 2 = v.getLsbD 2 := by
  revert v; cases m <;> decide

/-- A dispatching write keeps the flag (R157). -/
theorem coincidence_storedStat (old v : Byte) : (storedStat old v).getLsbD 2 = old.getLsbD 2 := by
  simp [storedStat]

/-! ## What UPDATE does to STAT, LY and the budget -/

/-- UPDATE keeps `STAT[7:3]` on both paths (R131). -/
theorem update_stat_upper (s : State) : (update s).stat.extractLsb' 3 5 = s.stat.extractLsb' 3 5 := by
  cases h : s.lcdc.getLsbD 7 with
  | true => rw [update_of_enabled s h, updateEnabled_stat, upperBits_withCoincidence, upperFive_withMode]
  | false => rw [update_of_disabled s h, updateDisplayOff_stat, upperFive_withMode]

/-- The display-off path makes no coincidence check (R113). -/
theorem update_coincidence_of_disabled (s : State) (h : s.lcdc.getLsbD 7 = false) :
    (update s).stat.getLsbD 2 = s.stat.getLsbD 2 := by
  rw [update_of_disabled s h, updateDisplayOff_stat, coincidence_withMode]

theorem update_ly_of_enabled (s : State) (h : s.lcdc.getLsbD 7 = true) : (update s).ly = s.ly := by
  rw [update_of_enabled s h, updateEnabled_ly]

theorem update_ly_of_disabled (s : State) (h : s.lcdc.getLsbD 7 = false) : (update s).ly = 0#8 := by
  rw [update_of_disabled s h, updateDisplayOff_ly]

theorem update_budget_of_enabled (s : State) (h : s.lcdc.getLsbD 7 = true) : (update s).budget = s.budget := by
  rw [update_of_enabled s h, updateEnabled_budget]

/-- The enabled path ends with the flag agreeing with the comparison (R126). -/
theorem coincidenceFresh_update (s : State) (h : s.lcdc.getLsbD 7 = true) : CoincidenceFresh (update s) := by
  show (update s).stat.getLsbD 2 = ((update s).ly == (update s).lyc)
  rw [update_ly_of_enabled s h, update_lyc, update_of_enabled s h, updateEnabled_stat]
  exact coincidence_withCoincidence ..

/-! ## The registers after a command -/

theorem afterCommand_lcdc {i : Instr} (h : ∀ v, i ≠ .wlcdc v) (s : State) : (afterCommand i s).lcdc = s.lcdc := by
  cases hu : performsUpdate i with
  | true => rw [afterCommand_of_update hu, returning_lcdc, update_lcdc, afterStore_lcdc h]
  | false => rw [afterCommand_of_noUpdate hu, returning_lcdc, afterStore_lcdc h]

theorem afterCommand_lyc {i : Instr} (h : ∀ v, i ≠ .wlyc v) (s : State) : (afterCommand i s).lyc = s.lyc := by
  cases hu : performsUpdate i with
  | true => rw [afterCommand_of_update hu, returning_lyc, update_lyc, afterStore_lyc h]
  | false => rw [afterCommand_of_noUpdate hu, returning_lyc, afterStore_lyc h]

/-- A command that does not take the display-off path leaves LY as its own store left it. -/
theorem afterCommand_ly {i : Instr} (s : State) (h : performsUpdate i = true → s.lcdc.getLsbD 7 = true) :
    (afterCommand i s).ly = (afterStore i s).ly := by
  cases hu : performsUpdate i with
  | true =>
    rw [afterCommand_of_update hu, returning_ly]
    exact update_ly_of_enabled _ ((displayEnable_afterStore hu s).trans (h hu))
  | false => rw [afterCommand_of_noUpdate hu, returning_ly]

/-- A command that does not take the display-off path leaves the budget as its own store left it. -/
theorem afterCommand_budget {i : Instr} (s : State) (h : performsUpdate i = true → s.lcdc.getLsbD 7 = true) :
    (afterCommand i s).budget = (afterStore i s).budget := by
  cases hu : performsUpdate i with
  | true =>
    rw [afterCommand_of_update hu, returning_budget]
    exact update_budget_of_enabled _ ((displayEnable_afterStore hu s).trans (h hu))
  | false => rw [afterCommand_of_noUpdate hu, returning_budget]

/-- `STAT[7:3]` after a command is what the command's own store left there. -/
theorem afterCommand_stat_upper (i : Instr) (s : State) :
    (afterCommand i s).stat.extractLsb' 3 5 = (afterStore i s).stat.extractLsb' 3 5 := by
  cases hu : performsUpdate i with
  | true => rw [afterCommand_of_update hu, returning_stat, update_stat_upper]
  | false => rw [afterCommand_of_noUpdate hu, returning_stat]

/-- Settles O45: UPDATE writes bits 2:0 alone, and of the stores only WSTAT's touches STAT, in bits 7:3. -/
theorem statWriteOwnership : Obligations.StatWriteOwnership := by
  unfold Obligations.StatWriteOwnership
  intro i s
  refine ⟨afterCommand i s, exec_eq i s, fun h => afterCommand_stat_of_noUpdate h s, ?_, ?_⟩
  · intro h
    rw [afterCommand_stat_upper, afterStore_stat h]
  · rintro v rfl
    rw [afterCommand_stat_upper]
    exact upperBits_storedStat s.stat v

/-- Settles O46: of the stores each register has its own, and UPDATE writes LY and the budget on the display-off path
alone. -/
theorem registerWriters : Obligations.RegisterWriters := by
  unfold Obligations.RegisterWriters
  intro i s
  have he := exec_eq i s
  refine ⟨afterCommand i s, he, fun h => afterCommand_lcdc h s, fun h => afterCommand_lyc h s, ?_, ?_,
    exec_refused i s _ he, exec_cfg i s _ he, exec_pending i s _ he⟩
  · intro hsetly hwly hpath
    rw [afterCommand_ly s hpath, afterStore_ly hsetly hwly]
  · intro hreload hadvance hpath
    rw [afterCommand_budget s hpath, afterStore_budget hreload hadvance]

/-! ## The coincidence flag (R26) -/

/-- No command's own store touches the flag. -/
theorem afterStore_coincidence (i : Instr) (s : State) : (afterStore i s).stat.getLsbD 2 = s.stat.getLsbD 2 := by
  cases i
  case wstat v => exact coincidence_storedStat s.stat v
  all_goals rfl

theorem coincidenceFresh_afterCommand_of_enabled {i : Instr} (s : State) (hu : performsUpdate i = true)
    (h : s.lcdc.getLsbD 7 = true) : CoincidenceFresh (afterCommand i s) := by
  rw [afterCommand_of_update hu]
  exact coincidenceFresh_update _ ((displayEnable_afterStore hu s).trans h)

/-- A command without an UPDATE that writes neither LY nor LYC keeps an agreeing flag. -/
theorem coincidenceFresh_afterCommand_of_noUpdate {i : Instr} (s : State) (hu : performsUpdate i = false)
    (hs : ∀ v, i ≠ .setly v) (hc : ∀ v, i ≠ .wlyc v) (h : CoincidenceFresh s) :
    CoincidenceFresh (afterCommand i s) := by
  have hly : (afterCommand i s).ly = s.ly := by
    rw [afterCommand_ly s (by simp [hu]), afterStore_ly hs (ne_wly_of_noUpdate hu)]
  show (afterCommand i s).stat.getLsbD 2 = ((afterCommand i s).ly == (afterCommand i s).lyc)
  rw [afterCommand_stat_of_noUpdate hu, hly, afterCommand_lyc hc]
  exact h

/-- Settles O50: an enabled UPDATE makes the flag agree, and nothing else writes it. -/
theorem coincidenceFlagFreshness : Obligations.CoincidenceFlagFreshness := by
  unfold Obligations.CoincidenceFlagFreshness
  intro i s
  refine ⟨afterCommand i s, exec_eq i s, coincidenceFresh_afterCommand_of_enabled s, ?_, ?_, ?_⟩
  · intro hfresh hsetly hwlyc hpath
    cases hu : performsUpdate i with
    | true => exact coincidenceFresh_afterCommand_of_enabled s hu (hpath hu)
    | false => exact coincidenceFresh_afterCommand_of_noUpdate s hu hsetly hwlyc hfresh
  · intro hu hoff
    rw [afterCommand_of_update hu, returning_stat,
      update_coincidence_of_disabled _ ((displayEnable_afterStore hu s).trans hoff),
      afterStore_coincidence]
  · intro hu
    rw [afterCommand_stat_of_noUpdate hu]

/-! ## The range of LY (R160) -/

/-- UPDATE keeps LY or stores 0. -/
theorem lyInRange_update (s : State) (h : LyInRange s) : LyInRange (update s) := by
  cases hon : s.lcdc.getLsbD 7 with
  | true =>
    rw [LyInRange, update_ly_of_enabled s hon]
    exact h
  | false =>
    rw [LyInRange, update_ly_of_disabled s hon]
    decide

/-- A command's own store meets the range where the driver's duty is kept. -/
theorem lyInRange_afterStore (i : Instr) (s : State) (h : LyInRange s) (hk : keepsLyInRange s i = true) :
    LyInRange (afterStore i s) := by
  cases i
  case setly v => exact of_decide_eq_true hk
  case wly v => exact of_decide_eq_true hk
  all_goals exact h

/-- Settles O51: the store meets the range, and the UPDATE after it keeps it. -/
theorem lineCounterStaysInRange : Obligations.LineCounterStaysInRange := by
  unfold Obligations.LineCounterStaysInRange
  intro i s h hk
  have hstore := lyInRange_afterStore i s h hk
  refine ⟨afterCommand i s, exec_eq i s, ?_⟩
  cases hu : performsUpdate i with
  | true =>
    rw [afterCommand_of_update hu]
    exact lyInRange_update _ hstore
  | false =>
    rw [afterCommand_of_noUpdate hu]
    exact hstore

end Sys2Proof.Machine
end

section
/-! SUPPORT. What no command reads: `LCDC[6:0]` and the last return (spec/10_state.md rule R23), the request log and the
mark (rules R32, R33). -/

namespace Sys2Proof.Machine

/-! ## LCDC[6:0] -/

/-- States that differ at most in `LCDC[6:0]` and the return: one is the other with those two replaced. -/
theorem agreeButLcdcLow_iff (s s' : State) : AgreeButLcdcLow s s' ↔
    ∃ l r, l.getLsbD 7 = s.lcdc.getLsbD 7 ∧ s' = { s with lcdc := l, ret := r } := by
  constructor
  · rintro ⟨h, hl⟩
    refine ⟨s'.lcdc, s'.ret, hl, ?_⟩
    rw [← h]
  · rintro ⟨l, r, hl, rfl⟩
    exact ⟨rfl, hl⟩

theorem agreeButLcdcLow_displayEnable {s s' : State} (h : AgreeButLcdcLow s s') :
    s'.lcdc.getLsbD 7 = s.lcdc.getLsbD 7 := h.2

theorem agreeButLcdcLow_pending {s s' : State} (h : AgreeButLcdcLow s s') : s'.pending = s.pending := by
  obtain ⟨l, r, -, rfl⟩ := (agreeButLcdcLow_iff s s').1 h
  rfl

theorem agreeButLcdcLow_updateEnabled {s s' : State} (h : AgreeButLcdcLow s s') :
    AgreeButLcdcLow (updateEnabled s) (updateEnabled s') := by
  rw [updateEnabled_eq, updateEnabled_eq]
  obtain ⟨l, r, hl, rfl⟩ := (agreeButLcdcLow_iff s s').1 h
  exact ⟨rfl, hl⟩

theorem agreeButLcdcLow_updateDisplayOff {s s' : State} (h : AgreeButLcdcLow s s') :
    AgreeButLcdcLow (updateDisplayOff s) (updateDisplayOff s') := by
  rw [updateDisplayOff_eq, updateDisplayOff_eq]
  obtain ⟨l, r, hl, rfl⟩ := (agreeButLcdcLow_iff s s').1 h
  exact ⟨rfl, hl⟩

/-- UPDATE reads bit 7 of LCDC alone (R112). -/
theorem agreeButLcdcLow_update {s s' : State} (h : AgreeButLcdcLow s s') : AgreeButLcdcLow (update s) (update s') := by
  have hbit := agreeButLcdcLow_displayEnable h
  cases hon : s.lcdc.getLsbD 7 with
  | true =>
    rw [update_of_enabled s hon, update_of_enabled s' (hbit.trans hon)]
    exact agreeButLcdcLow_updateEnabled h
  | false =>
    rw [update_of_disabled s hon, update_of_disabled s' (hbit.trans hon)]
    exact agreeButLcdcLow_updateDisplayOff h

theorem agreeButLcdcLow_afterStore (i : Instr) {s s' : State} (h : AgreeButLcdcLow s s') :
    AgreeButLcdcLow (afterStore i s) (afterStore i s') := by
  obtain ⟨l, r, hl, rfl⟩ := (agreeButLcdcLow_iff s s').1 h
  cases i
  case wlcdc v => exact ⟨rfl, rfl⟩
  all_goals exact ⟨rfl, hl⟩

theorem agreeButLcdcLow_returning {s s' : State} (h : AgreeButLcdcLow s s') (r r' : Option Ret) :
    AgreeButLcdcLow (s.returning r) (s'.returning r') := by
  obtain ⟨l, q, hl, rfl⟩ := (agreeButLcdcLow_iff s s').1 h
  exact ⟨rfl, hl⟩

theorem agreeButLcdcLow_afterCommand (i : Instr) {s s' : State} (h : AgreeButLcdcLow s s') :
    AgreeButLcdcLow (afterCommand i s) (afterCommand i s') := by
  have hstore := agreeButLcdcLow_afterStore i h
  cases hu : performsUpdate i with
  | true =>
    rw [afterCommand_of_update hu, afterCommand_of_update hu]
    exact agreeButLcdcLow_returning (agreeButLcdcLow_update hstore) ..
  | false =>
    rw [afterCommand_of_noUpdate hu, afterCommand_of_noUpdate hu]
    exact agreeButLcdcLow_returning hstore ..

/-- Only the register read of LCDC shows bits 6:0. -/
theorem returnOf_agreeButLcdcLow {i : Instr} {s s' : State} (h : AgreeButLcdcLow s s') (hi : i ≠ .rd .lcdc) :
    returnOf i s' = returnOf i s := by
  obtain ⟨l, r, hl, rfl⟩ := (agreeButLcdcLow_iff s s').1 h
  cases i
  case qen => exact congrArg (fun b => some (Ret.bit b)) hl
  case rd sel =>
    cases sel
    case lcdc => exact absurd rfl hi
    all_goals rfl
  all_goals rfl

theorem agreeButLcdcLow_withPending {s s' : State} (h : AgreeButLcdcLow s s') (rest : List CmdWord) :
    AgreeButLcdcLow { s with pending := rest } { s' with pending := rest } := by
  obtain ⟨l, r, hl, rfl⟩ := (agreeButLcdcLow_iff s s').1 h
  exact ⟨rfl, hl⟩

theorem agreeButLcdcLow_refuse {s s' : State} (h : AgreeButLcdcLow s s') : AgreeButLcdcLow s.refuse s'.refuse := by
  obtain ⟨l, r, hl, rfl⟩ := (agreeButLcdcLow_iff s s').1 h
  exact ⟨rfl, hl⟩

/-- One step keeps the relation, whichever of its three kinds it is. -/
theorem step_agreeButLcdcLow {s s' : State} (h : AgreeButLcdcLow s s') :
    ∃ t t', step s = .next t ∧ step s' = .next t' ∧ AgreeButLcdcLow t t' := by
  have hsame := agreeButLcdcLow_pending h
  cases hp : s.pending with
  | nil => exact ⟨s, s', step_of_nil hp, step_of_nil (hsame.trans hp), h⟩
  | cons w rest =>
    have hrest := agreeButLcdcLow_withPending h rest
    cases hd : decode w with
    | instr i =>
      exact ⟨_, _, (step_of_instr hp hd).trans (exec_eq ..), (step_of_instr (hsame.trans hp) hd).trans (exec_eq ..),
        agreeButLcdcLow_afterCommand i hrest⟩
    | reserved op =>
      exact ⟨_, _, step_of_reserved hp hd, step_of_reserved (hsame.trans hp) hd, agreeButLcdcLow_refuse hrest⟩

theorem runs_agreeButLcdcLow (k : Nat) (s s' : State) (h : AgreeButLcdcLow s s') :
    ∃ t t', Runs k s t ∧ Runs k s' t' ∧ AgreeButLcdcLow t t' := by
  induction k generalizing s s' with
  | zero => exact ⟨s, s', rfl, rfl, h⟩
  | succ k ih =>
    obtain ⟨u, u', hstep, hstep', hu⟩ := step_agreeButLcdcLow h
    obtain ⟨t, t', hrun, hrun', ht⟩ := ih u u' hu
    exact ⟨t, t', (runs_succ ..).2 ⟨u, hstep, hrun⟩, (runs_succ ..).2 ⟨u', hstep', hrun'⟩, ht⟩

/-- Settles O57: every step keeps the relation, and of the returns only that of `RD LCDC` can tell the two apart. -/
theorem lcdcLowBitsHaveNoEffect : Obligations.LcdcLowBitsHaveNoEffect := by
  unfold Obligations.LcdcLowBitsHaveNoEffect
  refine ⟨runs_agreeButLcdcLow, ?_⟩
  intro i s s' h hi
  refine ⟨_, _, exec_eq i s, exec_eq i s', ?_⟩
  rw [afterCommand_ret, afterCommand_ret, returnOf_agreeButLcdcLow h hi]

/-! ## The request log and the mark -/

/-- The state with the two fields that no command reads replaced. -/
def withLogAndMark (s : State) (log : List Request) (mark : Bool) : State := { s with irqlog := log, refused := mark }

theorem afterStore_withLogAndMark (i : Instr) (s : State) (log : List Request) (mark : Bool) :
    afterStore i (withLogAndMark s log mark) = withLogAndMark (afterStore i s) log mark := by cases i <;> rfl

theorem returnOf_withLogAndMark (i : Instr) (s : State) (log : List Request) (mark : Bool) :
    returnOf i (withLogAndMark s log mark) = returnOf i s := by
  cases i
  case rd sel => cases sel <;> rfl
  all_goals rfl

/-- UPDATE makes the same requests whatever the log and the mark hold, and appends them to whichever log there is. -/
theorem update_withLogAndMark (s : State) (log : List Request) (mark : Bool) :
    ∃ m c, (update s).irqlog = s.irqlog ++ requestsFrom s.irqlog.length m c ∧
      update (withLogAndMark s log mark) = withLogAndMark (update s) (log ++ requestsFrom log.length m c) mark := by
  cases hon : s.lcdc.getLsbD 7 with
  | true =>
    refine ⟨modeGate s, lycGate s, ?_, ?_⟩
    · rw [update_of_enabled s hon, updateEnabled_eq]
    · rw [update_of_enabled s hon, update_of_enabled (withLogAndMark s log mark) hon, updateEnabled_eq,
        updateEnabled_eq]
      rfl
  | false =>
    refine ⟨false, false, ?_, ?_⟩
    · rw [update_of_disabled s hon, updateDisplayOff_irqlog, requestsFrom_none, List.append_nil]
    · rw [update_of_disabled s hon, update_of_disabled (withLogAndMark s log mark) hon, requestsFrom_none,
        List.append_nil]
      rfl

theorem afterCommand_withLogAndMark (i : Instr) (s : State) (log : List Request) (mark : Bool) :
    ∃ m c, (afterCommand i s).irqlog = s.irqlog ++ requestsFrom s.irqlog.length m c ∧
      afterCommand i (withLogAndMark s log mark) =
        withLogAndMark (afterCommand i s) (log ++ requestsFrom log.length m c) mark := by
  cases hu : performsUpdate i with
  | true =>
    obtain ⟨m, c, hlog, hupdate⟩ := update_withLogAndMark (afterStore i s) log mark
    rw [afterStore_irqlog] at hlog
    refine ⟨m, c, ?_, ?_⟩
    · rw [afterCommand_of_update hu, returning_irqlog, hlog]
    · rw [afterCommand_of_update hu, afterCommand_of_update hu, afterStore_withLogAndMark, hupdate,
        returnOf_withLogAndMark]
      rfl
  | false =>
    refine ⟨false, false, ?_, ?_⟩
    · rw [afterCommand_irqlog_of_noUpdate hu, requestsFrom_none, List.append_nil]
    · rw [afterCommand_of_noUpdate hu, afterCommand_of_noUpdate hu, afterStore_withLogAndMark, returnOf_withLogAndMark,
        requestsFrom_none, List.append_nil]
      rfl

/-- Settles O59: a command from the replaced fields ends in its own next state with the two fields replaced. -/
theorem logAndMarkAreNeverRead : Obligations.LogAndMarkAreNeverRead := by
  unfold Obligations.LogAndMarkAreNeverRead
  intro i s log mark
  obtain ⟨m, c, hlog, hreplaced⟩ := afterCommand_withLogAndMark i s log mark
  exact ⟨afterCommand i s, _, m, c, exec_eq i s, (exec_eq ..).trans (congrArg _ hreplaced), rfl, rfl, hlog, rfl⟩

end Sys2Proof.Machine
end

section
/-! SUPPORT. The command stream along a run (spec/20_memory.md rule R60; spec/42_environment.md rule R150). -/

namespace Sys2Proof.Machine

/-- A step takes the first command, a reserved one too, and no other off the stream; an empty stream stays empty. -/
theorem step_pending (s t : State) (h : step s = .next t) : t.pending = s.pending.drop 1 := by
  obtain ⟨hp, rfl⟩ | ⟨w, rest, i, hp, -, he⟩ | ⟨w, rest, op, hp, -, rfl⟩ := step_cases s t h
  · rw [hp, List.drop_nil]
  · rw [hp]
    exact exec_pending i { s with pending := rest } t he
  · rw [hp]
    exact refuse_pending { s with pending := rest }

theorem runs_pending : ∀ (k : Nat) (s t : State), Runs k s t → t.pending = s.pending.drop k := by
  refine runs_induction (fun k s t => t.pending = s.pending.drop k) (fun _ => List.drop_zero.symm) ?_
  intro k s u t hstep _ ih
  rw [ih, step_pending s u hstep, List.drop_drop, Nat.add_comm 1 k]

/-- A run can be cut after any number of its steps. -/
theorem runs_add (j k : Nat) (s u : State) : Runs (j + k) s u ↔ ∃ t, Runs j s t ∧ Runs k t u := by
  induction j generalizing s with
  | zero => simp [runs_zero]
  | succ j ih =>
    rw [Nat.add_right_comm, runs_succ]
    constructor
    · rintro ⟨r, hstep, hrun⟩
      obtain ⟨t, hj, hk⟩ := (ih r).1 hrun
      exact ⟨t, (runs_succ j s t).2 ⟨r, hstep, hj⟩, hk⟩
    · rintro ⟨t, hj, hk⟩
      obtain ⟨r, hstep, hj⟩ := (runs_succ j s t).1 hj
      exact ⟨r, hstep, (ih r).2 ⟨t, hj, hk⟩⟩

/-- Settles O8: a step takes one command off the front of the stream, and a run is its steps one after the other. -/
theorem commandsInIssueOrder : Obligations.CommandsInIssueOrder := by
  unfold Obligations.CommandsInIssueOrder
  exact ⟨runs_pending, runs_add, issue_pending⟩

end Sys2Proof.Machine
end

section
/-! SUPPORT. The access paths at an address (spec/20_memory.md rules R51 to R54), and what each operation leaves
unchanged of what MemRead gives. -/

namespace Sys2Proof.Machine

/-! ## The three paths at a register's address and elsewhere -/

theorem memRead_addrOf (s : State) (h : s.cfg.Ok) (r : Reg) : s.memRead (addrOf s.cfg r) = some (s.readReg r) := by
  rw [State.memRead, regAt_addrOf s.cfg h, Option.map_some]

theorem memWriteRaw_addrOf (s : State) (h : s.cfg.Ok) (r : RawReg) (v : Byte) :
    s.memWriteRaw (addrOf s.cfg (rawTarget r)) v = some (s.rawWrite r v) := by
  rw [State.memWriteRaw, regAt_addrOf s.cfg h]
  cases r <;> rfl

theorem memWriteDispatch_addrOf (s : State) (h : s.cfg.Ok) (r : Reg) (v : Byte) :
    s.memWriteDispatch (addrOf s.cfg r) v = some (dispatchWrite s r v) := by
  rw [State.memWriteDispatch, regAt_addrOf s.cfg h, Option.map_some]

/-- No register lies at an address that is none of the four (R51). -/
theorem regAt_eq_none (c : Params) (a : Addr) (h : a ∉ [c.addrLcdc, c.addrStat, c.addrLy, c.addrLyc]) :
    regAt c a = none := by
  cases hr : regAt c a with
  | none => rfl
  | some r =>
    refine absurd ?_ h
    rw [addrOf_of_regAt c a r hr]
    cases r <;> simp [addrOf]

/-- Where no register lies, no path gives an access (log entry 10). -/
theorem no_access_of_regAt_none (s : State) (a : Addr) (v : Byte) (h : regAt s.cfg a = none) :
    s.memRead a = none ∧ s.memWriteRaw a v = none ∧ s.memWriteDispatch a v = none := by
  simp [State.memRead, State.memWriteRaw, State.memWriteDispatch, h]

/-- Settles O49: admissible addresses are distinct, so each selects its own register, and any other selects none. -/
theorem accessPaths : Obligations.AccessPaths := by
  unfold Obligations.AccessPaths
  intro s v hok
  have hread := memRead_addrOf s hok
  have hraw := memWriteRaw_addrOf s hok
  have hdispatch := memWriteDispatch_addrOf s hok
  refine ⟨hread .lcdc, hread .stat, hread .ly, hread .lyc, hraw .stat v, hraw .ly v,
    hdispatch .lcdc v, hdispatch .lyc v,
    ⟨dispatchWrite s .stat v, hdispatch .stat v, rfl⟩, ⟨dispatchWrite s .ly v, hdispatch .ly v, rfl⟩, ?_⟩
  intro a ha
  exact no_access_of_regAt_none s a v (regAt_eq_none s.cfg a ha)

/-! ## What MemRead gives after an operation -/

@[simp] theorem memRead_returning (s : State) (r : Option Ret) (a : Addr) :
    (s.returning r).memRead a = s.memRead a := rfl

@[simp] theorem memRead_setBudget (s : State) (b : Budget) (a : Addr) : (s.setBudget b).memRead a = s.memRead a := rfl

theorem setReg_cfg (s : State) (r : Reg) (v : Byte) : (s.setReg r v).cfg = s.cfg := by cases r <;> rfl

/-- A store into a register is not seen at the other addresses. -/
theorem memRead_setReg_of_ne (s : State) (r : Reg) (v : Byte) (a : Addr) (h : a ≠ addrOf s.cfg r) :
    (s.setReg r v).memRead a = s.memRead a := by
  apply memRead_congr s (s.setReg r v) a (setReg_cfg s r v)
  rintro r' rfl
  refine readReg_setReg_of_ne s r r' v ?_
  rintro rfl
  exact h rfl

/-- UPDATE writes STAT and LY alone of the registers with an address. -/
theorem memRead_update_of_ne (s : State) (a : Addr) (hstat : a ≠ s.cfg.addrStat) (hly : a ≠ s.cfg.addrLy) :
    (update s).memRead a = s.memRead a := by
  apply memRead_congr s (update s) a (update_cfg s)
  intro r ha
  cases r with
  | lcdc => exact update_lcdc s
  | stat => exact absurd ha hstat
  | ly => exact absurd ha hly
  | lyc => exact update_lyc s

/-- On the enabled path UPDATE leaves LY alone too. -/
theorem memRead_update_of_enabled (s : State) (a : Addr) (hon : s.lcdc.getLsbD 7 = true) (hstat : a ≠ s.cfg.addrStat) :
    (update s).memRead a = s.memRead a := by
  apply memRead_congr s (update s) a (update_cfg s)
  intro r ha
  cases r with
  | lcdc => exact update_lcdc s
  | stat => exact absurd ha hstat
  | ly => exact update_ly_of_enabled s hon
  | lyc => exact update_lyc s

theorem afterStore_cfg (i : Instr) (s : State) : (afterStore i s).cfg = s.cfg := by cases i <;> rfl

/-- The store before an UPDATE is seen at STAT's address, and at LY's if it is WLY's. -/
theorem memRead_afterStore_of_update {i : Instr} (hu : performsUpdate i = true) (s : State) (a : Addr)
    (hstat : a ≠ s.cfg.addrStat) (hly : ∀ v, i = .wly v → a ≠ s.cfg.addrLy) :
    (afterStore i s).memRead a = s.memRead a := by
  cases i
  case update => rfl
  case wstat v => exact memRead_setReg_of_ne s .stat _ a hstat
  case wly v => exact memRead_setReg_of_ne s .ly _ a (hly v rfl)
  all_goals cases hu

theorem memRead_afterCommand_of_update {i : Instr} (hu : performsUpdate i = true) (s : State) (a : Addr)
    (hstat : a ≠ s.cfg.addrStat) (hly : a ≠ s.cfg.addrLy) : (afterCommand i s).memRead a = s.memRead a := by
  rw [afterCommand_of_update hu, memRead_returning,
    memRead_update_of_ne _ a (by rwa [afterStore_cfg]) (by rwa [afterStore_cfg]),
    memRead_afterStore_of_update hu s a hstat fun _ _ => hly]

theorem memRead_afterCommand_of_enabled {i : Instr} (hu : performsUpdate i = true) (hwly : ∀ v, i ≠ .wly v) (s : State)
    (hon : s.lcdc.getLsbD 7 = true) (a : Addr) (hstat : a ≠ s.cfg.addrStat) :
    (afterCommand i s).memRead a = s.memRead a := by
  rw [afterCommand_of_update hu, memRead_returning,
    memRead_update_of_enabled _ a ((displayEnable_afterStore hu s).trans hon) (by rwa [afterStore_cfg]),
    memRead_afterStore_of_update hu s a hstat fun v hv => absurd hv (hwly v)]

/-- Settles O48: a command's store is seen at its own register's address alone, and its UPDATE at STAT's and, on the
display-off path, LY's. -/
theorem memoryFrame : Obligations.MemoryFrame := by
  unfold Obligations.MemoryFrame
  intro i s
  refine ⟨afterCommand i s, exec_eq i s, fun a => ⟨?_, ?_, ?_, ?_, ?_, ?_⟩⟩
  · rintro (rfl | rfl | ⟨n, rfl⟩ | ⟨r, rfl⟩)
    · exact memRead_returning s _ a
    · exact memRead_setBudget s (lineTotal s.cfg) a
    · exact memRead_setBudget s (budgetAfter s.budget n) a
    · exact memRead_returning s _ a
  · rintro v rfl hne
    exact memRead_setReg_of_ne s .ly v a hne
  · rintro v rfl hne
    exact memRead_setReg_of_ne s .lcdc v a hne
  · rintro v rfl hne
    exact memRead_setReg_of_ne s .lyc v a hne
  · intro hu hstat hly
    exact memRead_afterCommand_of_update hu s a hstat hly
  · intro hu hwly hon hstat
    exact memRead_afterCommand_of_enabled hu hwly s hon a hstat

end Sys2Proof.Machine
end

section
/-! SUPPORT. No command reads the values of the four addresses (spec/20_memory.md rule R51, decision D10). -/

namespace Sys2Proof.Machine

/-- The state with its parameters replaced. -/
def withParams (s : State) (c : Params) : State := { s with cfg := c }

/-- Parameters that differ at most in the addresses: one record is the other with the addresses replaced. -/
theorem agreeButAddresses_iff (c c' : Params) : AgreeButAddresses c c' ↔
    ∃ lcdc stat ly lyc, c' = { c with addrLcdc := lcdc, addrStat := stat, addrLy := ly, addrLyc := lyc } := by
  constructor
  · intro h
    refine ⟨c'.addrLcdc, c'.addrStat, c'.addrLy, c'.addrLyc, ?_⟩
    rw [← h]
  · rintro ⟨lcdc, stat, ly, lyc, rfl⟩
    rfl

theorem afterStore_withParams (i : Instr) {s : State} {c : Params} (h : AgreeButAddresses s.cfg c) :
    afterStore i (withParams s c) = withParams (afterStore i s) c := by
  obtain ⟨lcdc, stat, ly, lyc, rfl⟩ := (agreeButAddresses_iff s.cfg c).1 h
  cases i <;> rfl

theorem returnOf_withParams (i : Instr) (s : State) (c : Params) : returnOf i (withParams s c) = returnOf i s := by
  cases i
  case rd sel => cases sel <;> rfl
  all_goals rfl

theorem updateEnabled_withParams {s : State} {c : Params} (h : AgreeButAddresses s.cfg c) :
    updateEnabled (withParams s c) = withParams (updateEnabled s) c := by
  obtain ⟨lcdc, stat, ly, lyc, rfl⟩ := (agreeButAddresses_iff s.cfg c).1 h
  rw [updateEnabled_eq, updateEnabled_eq]
  rfl

/-- UPDATE reads the thresholds and the tag alone of the parameters. -/
theorem update_withParams {s : State} {c : Params} (h : AgreeButAddresses s.cfg c) :
    update (withParams s c) = withParams (update s) c := by
  cases hon : s.lcdc.getLsbD 7 with
  | true => rw [update_of_enabled s hon, update_of_enabled (withParams s c) hon, updateEnabled_withParams h]
  | false =>
    rw [update_of_disabled s hon, update_of_disabled (withParams s c) hon]
    rfl

theorem afterCommand_withParams (i : Instr) {s : State} {c : Params} (h : AgreeButAddresses s.cfg c) :
    afterCommand i (withParams s c) = withParams (afterCommand i s) c := by
  cases hu : performsUpdate i with
  | true =>
    have hstore : AgreeButAddresses (afterStore i s).cfg c := by rwa [afterStore_cfg]
    rw [afterCommand_of_update hu, afterCommand_of_update hu, afterStore_withParams i h, update_withParams hstore,
      returnOf_withParams]
    rfl
  | false =>
    rw [afterCommand_of_noUpdate hu, afterCommand_of_noUpdate hu, afterStore_withParams i h, returnOf_withParams]
    rfl

/-- Settles O58: a command from the replaced parameters ends in its own next state with the parameters replaced. -/
theorem addressValuesHaveNoEffect : Obligations.AddressValuesHaveNoEffect := by
  unfold Obligations.AddressValuesHaveNoEffect
  intro i s c h
  exact ⟨afterCommand i s, exec_eq i s, (exec_eq ..).trans (congrArg _ (afterCommand_withParams i h))⟩

end Sys2Proof.Machine
end

section
/-! SUPPORT. The encoding (spec/30_encoding.md rules R74 to R82): what the decoder reads under each operation code,
which bits of a word it looks at, and the words of an assembly line. -/

namespace Sys2Proof.Machine

open Sys2Proof.Laws

/-! ## A command's row of the opcode map -/

/-- The command of the same row, with its operand read from the operand bus `d` (R75). -/
def withOperand (i : Instr) (d : BitVec 32) : Instr :=
  match i with
  | .update => .update
  | .qen => .qen
  | .reload => .reload
  | .advance _ => .advance (nOperand d)
  | .setly _ => .setly (imm8Operand d)
  | .wlcdc _ => .wlcdc (imm8Operand d)
  | .wlyc _ => .wlyc (imm8Operand d)
  | .wstat _ => .wstat (imm8Operand d)
  | .wly _ => .wly (imm8Operand d)
  | .rd _ => .rd (selOperand d)

/-- Under a command's operation code the decoder reads that command, its operand from the bus. -/
theorem decodeFields_opcode (i : Instr) (d : BitVec 32) : decodeFields (opcode i) d = .instr (withOperand i d) := by
  cases i <;> rfl

theorem opcode_withOperand (i : Instr) (d : BitVec 32) : opcode (withOperand i d) = opcode i := by
  cases i <;> rfl

theorem withOperand_withOperand (i : Instr) (d d' : BitVec 32) :
    withOperand (withOperand i d) d' = withOperand i d' := by
  cases i <;> rfl

/-- An operand read from the bus lies in its range. -/
theorem wf_withOperand (i : Instr) (d : BitVec 32) : (withOperand i d).wf = true := by
  cases i
  case advance n => exact decide_eq_true d.isLt
  all_goals rfl

/-- A well-formed command is read back from its own operand bits. -/
theorem withOperand_operandBits {i : Instr} (h : i.wf = true) : withOperand i (operandBits i) = i := by
  cases i
  case advance n => exact congrArg Instr.advance (nOperand_ofNat n (of_decide_eq_true h))
  case rd r => exact congrArg Instr.rd (selOperand_selCode r)
  all_goals simp [withOperand, operandBits]

/-- An operand read from the bus has the used bits of the bus and no others. -/
theorem operandBits_withOperand (i : Instr) (d : BitVec 32) :
    operandBits (withOperand i d) = d &&& usedOperandBits i := by
  cases i
  case update | qen | reload => exact BitVec.and_zero.symm
  case advance n => exact (BitVec.ofNat_toNat 32 d).trans ((BitVec.setWidth_eq d).trans BitVec.and_allOnes.symm)
  case rd r => exact selOperand_eq_and d
  all_goals exact imm8Operand_eq_and d

/-- The ignored bits of the bus do not reach the operand: what is read from the bus is read from its used bits. -/
theorem withOperand_and_used (i : Instr) (d : BitVec 32) :
    withOperand i (d &&& usedOperandBits i) = withOperand i d := by
  rw [← operandBits_withOperand, ← withOperand_withOperand i d, withOperand_operandBits (wf_withOperand i d)]

/-! ## Commands and reserved codes -/

/-- One command of each row of the opcode map (R76). -/
def commandRows : List Instr :=
  [.update, .qen, .reload, .advance 0, .setly 0, .wlcdc 0, .wlyc 0, .wstat 0, .wly 0, .rd .lcdc]

/-- The codes that no row has are the reserved ones (R78). -/
theorem reservedOp_or_mem_commandRows (op : BitVec 4) : ReservedOp op ∨ op ∈ commandRows.map opcode := by
  revert op; decide

theorem reservedOp_iff_mem (op : BitVec 4) :
    ReservedOp op ↔ op ∈ [0b0000#4, 0b1011#4, 0b1100#4, 0b1101#4, 0b1110#4, 0b1111#4] := by
  revert op; decide

theorem decodeFields_of_reservedOp {op : BitVec 4} (h : ReservedOp op) (d : BitVec 32) :
    decodeFields op d = .reserved op := by
  rw [reservedOp_iff_mem] at h
  simp only [List.mem_cons, List.not_mem_nil, or_false] at h
  rcases h with rfl | rfl | rfl | rfl | rfl | rfl <;> rfl

/-- The decoder answers one of two things: a reserved code by its name, or the command of the row that has the code. -/
theorem decodeFields_cases (op : BitVec 4) (d : BitVec 32) :
    (ReservedOp op ∧ decodeFields op d = .reserved op) ∨
    (∃ i, op = opcode i ∧ decodeFields op d = .instr (withOperand i d)) := by
  rcases reservedOp_or_mem_commandRows op with h | h
  · exact .inl ⟨h, decodeFields_of_reservedOp h d⟩
  · obtain ⟨i, -, rfl⟩ := List.mem_map.1 h
    exact .inr ⟨i, rfl, decodeFields_opcode i d⟩

/-- A word decodes to a command exactly if it has the command's code and the command's operand is read from its bus. -/
theorem decode_eq_instr (w : CmdWord) (i : Instr) :
    decode w = .instr i ↔ opField w = opcode i ∧ withOperand i (operandBus w) = i := by
  constructor
  · intro h
    obtain ⟨-, hd⟩ | ⟨j, hop, hd⟩ := decodeFields_cases (opField w) (operandBus w)
    · exact nomatch hd.symm.trans h
    · obtain rfl : withOperand j (operandBus w) = i := Decoded.instr.inj (hd.symm.trans h)
      exact ⟨hop.trans (opcode_withOperand ..).symm, withOperand_withOperand ..⟩
  · rintro ⟨hop, hi⟩
    rw [decode, hop, decodeFields_opcode, hi]

/-- A word decodes as reserved only under its own code, a reserved one (R78). -/
theorem reservedOp_of_decode {w : CmdWord} {op : BitVec 4} (h : decode w = .reserved op) :
    op = opField w ∧ ReservedOp op := by
  obtain ⟨hr, hd⟩ | ⟨j, -, hd⟩ := decodeFields_cases (opField w) (operandBus w)
  · obtain rfl : opField w = op := Decoded.reserved.inj (hd.symm.trans h)
    exact ⟨rfl, hr⟩
  · exact nomatch hd.symm.trans h

theorem decode_encode {i : Instr} (h : i.wf = true) : decode (encode i) = .instr i := by
  rw [decode_eq_instr, opField_encode, operandBus_encode]
  exact ⟨rfl, withOperand_operandBits h⟩

/-- Settles O1: the encoder writes the command's code and operand bits, and a well-formed command is read back from
them. -/
theorem decodeOfEncode : Obligations.DecodeOfEncode := by
  unfold Obligations.DecodeOfEncode
  intro i h
  exact decode_encode h

/-! ## The bits of a word that the decoder looks at -/

/-- The word with the ignored bits of a command's row cleared: its code, and the used bits of its bus. -/
theorem and_used_eq (w : CmdWord) (i : Instr) : w &&& commandWord 0xF#4 (usedOperandBits i) =
    commandWord (opField w) (operandBus w &&& usedOperandBits i) := by
  conv_lhs => rw [← commandWord_fields w]
  exact commandWord_and ..

theorem wf_of_decode {w : CmdWord} {i : Instr} (h : decode w = .instr i) : i.wf = true := by
  obtain ⟨-, hi⟩ := (decode_eq_instr w i).1 h
  rw [← hi]
  exact wf_withOperand ..

/-- A word decodes to a well-formed command exactly if, without the ignored bits, it is the command's own word. -/
theorem decode_eq_instr_iff_and_used {i : Instr} (h : i.wf = true) (w : CmdWord) :
    decode w = .instr i ↔ w &&& commandWord 0xF#4 (usedOperandBits i) = encode i := by
  rw [decode_eq_instr, and_used_eq]
  constructor
  · rintro ⟨hop, hi⟩
    rw [hop, ← operandBits_withOperand, hi]
    rfl
  · intro hw
    obtain ⟨hop, hd⟩ := commandWord_injective hw
    refine ⟨hop, ?_⟩
    rw [← withOperand_and_used, hd, withOperand_operandBits h]

/-- Settles O2: a word decodes to a well-formed command exactly if its used bits are those of the command's word. -/
theorem encodeOfDecode : Obligations.EncodeOfDecode := by
  unfold Obligations.EncodeOfDecode
  intro w i hw
  have hi : i.wf = true := wf_of_decode hw
  exact ⟨hi, ((decode_eq_instr_iff_and_used hi w).1 hw).symm, fun w' => (decode_eq_instr_iff_and_used hi w').2⟩

/-- Two words with the same code and the same used bits decode to the same command. -/
theorem decode_of_and_used_eq {w w' : CmdWord} {i : Instr} (hw : decode w = .instr i)
    (h : w' &&& commandWord 0xF#4 (usedOperandBits i) = w &&& commandWord 0xF#4 (usedOperandBits i)) :
    decode w' = .instr i := by
  have hi : i.wf = true := wf_of_decode hw
  exact (decode_eq_instr_iff_and_used hi w').2 (h.trans ((decode_eq_instr_iff_and_used hi w).1 hw))

theorem decode_of_reservedOp {op : BitVec 4} (h : ReservedOp op) (d : BitVec 32) :
    decode (commandWord op d) = .reserved op := by
  rw [decode_commandWord, decodeFields_of_reservedOp h]

/-- The row of a command, at every operand bus. -/
theorem decode_opcode (i : Instr) (d : BitVec 32) : decode (commandWord (opcode i) d) = .instr (withOperand i d) := by
  rw [decode_commandWord, decodeFields_opcode]

/-- The register that bits 1:0 of the operand bus select is the one whose code they are (R75). -/
theorem selOperand_of_selCode {d : BitVec 32} {r : Reg} (h : d.extractLsb' 0 2 = selCode r) : selOperand d = r := by
  simp only [selOperand, h]
  cases r <;> rfl

theorem decode_rd {d : BitVec 32} {r : Reg} (h : d.extractLsb' 0 2 = selCode r) :
    decode (commandWord 0b1010#4 d) = .instr (.rd r) :=
  (decode_opcode (.rd r) d).trans (congrArg (Decoded.instr ∘ Instr.rd) (selOperand_of_selCode h))

/-- Settles O3: each code is its row's or reserved, and words that agree in the used bits decode to one command. -/
theorem opcodeMapAndOperands : Obligations.OpcodeMapAndOperands := by
  unfold Obligations.OpcodeMapAndOperands
  refine ⟨fun d => ?_, fun op d h => decode_of_reservedOp h d, fun s rest w w' i hw hused => ?_⟩
  · exact ⟨decode_opcode .update d, decode_opcode .qen d, decode_opcode .reload d, decode_opcode (.advance 0) d,
      decode_opcode (.setly 0) d, decode_opcode (.wlcdc 0) d, decode_opcode (.wlyc 0) d, decode_opcode (.wstat 0) d,
      decode_opcode (.wly 0) d, decode_rd (r := .lcdc), decode_rd (r := .stat), decode_rd (r := .ly),
      decode_rd (r := .lyc)⟩
  · have hstep : ∀ v : CmdWord, decode v = .instr i →
        step { s with pending := v :: rest } = exec i { s with pending := rest } := fun _ hv => step_of_instr rfl hv
    rw [hstep w hw, hstep w' (decode_of_and_used_eq hw hused)]

/-- Settles O4: the encoder computes the words, and each well-formed command is decoded from its own. -/
theorem workedEncodings : Obligations.WorkedEncodings := by
  unfold Obligations.WorkedEncodings
  exact ⟨rfl, rfl, rfl, rfl, rfl, rfl, decode_encode (i := .update) rfl, decode_encode (i := .qen) rfl,
    decode_encode (i := .advance 80) rfl, decode_encode (i := .wstat 0x48#8) rfl, decode_encode (i := .rd .ly) rfl,
    decode_encode (i := .wlcdc 0x91#8) rfl⟩

/-! ## The assembler's lines -/

/-- The commands that an accepted line expands to are well formed (R80). -/
theorem wf_of_mem_expand {l : AsmLine} (hl : l.wf = true) : ∀ i ∈ expand l, i.wf = true := by
  cases l
  case advance n => simpa [expand, Instr.wf, AsmLine.wf] using hl
  case tick n => simpa [expand, Instr.wf, AsmLine.wf] using hl
  all_goals simp [expand, Instr.wf]

theorem assembleLine_of_wf {l : AsmLine} (h : l.wf = true) : assembleLine l = some ((expand l).map encode) := if_pos h

theorem assembleLine_of_not_wf {l : AsmLine} (h : l.wf = false) : assembleLine l = none := if_neg (by simp [h])

/-- The assembler accepts exactly the well-formed lines. -/
theorem assembleLine_isSome (l : AsmLine) : (assembleLine l).isSome = l.wf := by
  cases h : l.wf with
  | true => rw [assembleLine_of_wf h]; rfl
  | false => rw [assembleLine_of_not_wf h]; rfl

/-- The words of an accepted line decode, one by one, to its expansion. -/
theorem map_decode_map_encode {is : List Instr} (h : ∀ i ∈ is, i.wf = true) :
    (is.map encode).map decode = is.map .instr := by
  rw [List.map_map]
  exact List.map_congr_left fun i hi => decode_encode (h i hi)

theorem getLsbD_seven_ofNat (v : Nat) : (BitVec.ofNat 8 v).getLsbD 7 = v.testBit 7 := by
  rw [BitVec.getLsbD_ofNat]
  rfl

/-- Of the bytes LCDON accepts those with bit 7 set, and LCDOFF the others (R81). -/
theorem wf_lcdon {v : Nat} (h : v ≤ 255) : (AsmLine.lcdon v).wf = (BitVec.ofNat 8 v).getLsbD 7 := by
  rw [getLsbD_seven_ofNat]
  simp [AsmLine.wf, h]

theorem wf_lcdoff {v : Nat} (h : v ≤ 255) : (AsmLine.lcdoff v).wf = !(BitVec.ofNat 8 v).getLsbD 7 := by
  rw [getLsbD_seven_ofNat]
  simp [AsmLine.wf, h]

/-- Settles O5: the assembler accepts the well-formed lines, and encodes the commands of their expansion. -/
theorem assemblerExpandsPseudoInstructions : Obligations.AssemblerExpandsPseudoInstructions := by
  unfold Obligations.AssemblerExpandsPseudoInstructions
  refine ⟨fun _ => rfl, fun _ => rfl, fun _ => rfl, fun _ => rfl, fun v hv => ⟨?_, ?_⟩, fun l hl => ?_,
    fun l hl => ?_⟩
  · exact (assembleLine_isSome _).trans (wf_lcdon hv)
  · exact (assembleLine_isSome _).trans (wf_lcdoff hv)
  · exact ⟨_, assembleLine_of_wf hl, map_decode_map_encode (wf_of_mem_expand hl)⟩
  · exact assembleLine_of_not_wf hl

end Sys2Proof.Machine
end

section
/-! SUPPORT. Reserved commands and the sticky mark (spec/30_encoding.md rules R78, R83), and what a command returns
(R84). -/

namespace Sys2Proof.Machine

/-- No reserved command among the first `k` of the stream. -/
abbrev NoReservedWithin (k : Nat) (s : State) : Prop := ∀ w ∈ s.pending.take k, ∃ i, decode w = .instr i

/-- Cutting the stream after its first command. -/
theorem noReservedWithin_succ {k : Nat} {s u : State} (h : u.pending = s.pending.drop 1) :
    NoReservedWithin (k + 1) s ↔ NoReservedWithin 1 s ∧ NoReservedWithin k u := by
  rw [NoReservedWithin, Nat.add_comm k 1, List.take_add, List.forall_mem_append, ← h]

/-- The mark is clear after a step exactly if it was clear before and the step performed no reserved command (R83). -/
theorem step_refused (s t : State) (h : step s = .next t) :
    t.refused = false ↔ s.refused = false ∧ NoReservedWithin 1 s := by
  obtain ⟨hp, rfl⟩ | ⟨w, rest, i, hp, hd, he⟩ | ⟨w, rest, op, hp, hd, rfl⟩ := step_cases s t h
  · simp [NoReservedWithin, hp]
  · rw [exec_refused i { s with pending := rest } t he]
    simp [NoReservedWithin, hp, hd]
  · simp [NoReservedWithin, hp, hd]

/-- The mark is clear after a run exactly if it was clear before and no reserved command was performed (R83). -/
theorem runs_refused : ∀ (k : Nat) (s t : State), Runs k s t →
    (t.refused = false ↔ s.refused = false ∧ NoReservedWithin k s) := by
  refine runs_induction (fun k s t => t.refused = false ↔ s.refused = false ∧ NoReservedWithin k s)
    (fun s => by simp [NoReservedWithin]) ?_
  intro k s u t hstep _ ih
  rw [ih, step_refused s u hstep, noReservedWithin_succ (k := k) (step_pending s u hstep), and_assoc]

/-- Settles O9: the step on a reserved word is its refusal, and no run from a state with the mark ends without it. -/
theorem reservedCommandRefused : Obligations.ReservedCommandRefused := by
  unfold Obligations.ReservedCommandRefused
  refine ⟨fun s op d rest hop hp => ?_, fun w op hw => reservedOp_of_decode hw, fun k s t hrun hs => ?_⟩
  · exact step_of_reserved hp (decode_of_reservedOp hop d)
  · by_contra ht
    obtain ⟨hclear, -⟩ := (runs_refused k s t hrun).1 (Bool.eq_false_of_not_eq_true ht)
    exact Bool.false_ne_true (hclear.symm.trans hs)

/-- Settles O10, by the induction of `runs_refused`. -/
theorem markClearIffNoReservedCommand : Obligations.MarkClearIffNoReservedCommand := by
  unfold Obligations.MarkClearIffNoReservedCommand
  intro k s t hrun hs
  rw [runs_refused k s t hrun]
  exact and_iff_right hs

/-- Settles O47: the next state's return is the command's, and the command decides its kind. -/
theorem commandReturns : Obligations.CommandReturns := by
  unfold Obligations.CommandReturns
  intro i s
  refine ⟨afterCommand i s, exec_eq i s, ?_, ?_, ?_⟩
  · rintro rfl
    exact ⟨_, rfl⟩
  · rintro r rfl
    exact ⟨_, rfl⟩
  · intro hqen hrd
    cases i
    case qen => exact absurd rfl hqen
    case rd r => exact absurd rfl (hrd r)
    all_goals rfl

end Sys2Proof.Machine
end

section
/-! SUPPORT. The mode and enable tables (spec/30_encoding.md rules R70, R71), and the window in which UPDATE writes each
mode's code (spec/41_update.md rules R115 to R118). -/

namespace Sys2Proof.Machine

/-- Settles O17: each mode's enable is read at the bit that the selector names. -/
theorem enableBitSelector : Obligations.EnableBitSelector := by
  unfold Obligations.EnableBitSelector
  exact ⟨rfl, rfl, rfl, rfl, fun v => ⟨rfl, rfl, rfl, rfl, rfl⟩⟩

theorem muxMode_oamSearch (c : Params) {ly : Byte} {b : Budget} (hly : ly.toNat < 144) (hb : c.tOam ≤ b.toInt) :
    muxMode c ly b = .oamSearch := by
  rw [muxMode_visible c ly b hly, if_pos hb]

theorem muxMode_transfer (c : Params) {ly : Byte} {b : Budget} (hly : ly.toNat < 144) (hb : c.tTransfer ≤ b.toInt)
    (hb' : b.toInt < c.tOam) : muxMode c ly b = .transfer := by
  rw [muxMode_visible c ly b hly, if_neg hb'.not_ge, if_pos hb]

/-- The first threshold being below the second, a budget below the first is below both. -/
theorem muxMode_hblank {c : Params} (hc : c.Ok) {ly : Byte} {b : Budget} (hly : ly.toNat < 144)
    (hb : b.toInt < c.tTransfer) : muxMode c ly b = .hblank := by
  obtain ⟨-, horder, -⟩ := hc
  rw [muxMode_visible c ly b hly, if_neg (hb.trans horder).not_ge, if_neg hb.not_ge]

/-- An enabled UPDATE writes the code of the mode it derives (R120). -/
theorem update_modeField_of_enabled (s : State) (h : s.lcdc.getLsbD 7 = true) :
    (update s).stat.extractLsb' 0 2 = modeCode (muxMode s.cfg s.ly s.budget) := by
  rw [update_of_enabled s h, updateEnabled_stat]
  exact (modeField_withCoincidence _ _).trans (modeField_withMode _ _)

/-- Settles O19: the code written is that of the multiplexer's mode, window by window. -/
theorem modeWindows : Obligations.ModeWindows := by
  unfold Obligations.ModeWindows
  intro s hc hon
  have hcode : (afterCommand .update s).stat.extractLsb' 0 2 = modeCode (muxMode s.cfg s.ly s.budget) :=
    update_modeField_of_enabled s hon
  refine ⟨afterCommand .update s, exec_eq .update s, ?_⟩
  rw [hcode]
  refine ⟨fun hly => ?_, fun hly hb => ?_, fun hly hb hb' => ?_, fun hly hb => ?_⟩
  · rw [muxMode_vblank _ _ _ hly]; rfl
  · rw [muxMode_oamSearch _ hly hb]; rfl
  · rw [muxMode_transfer _ hly hb hb']; rfl
  · rw [muxMode_hblank hc hly hb]; rfl

end Sys2Proof.Machine
end

section
/-! SUPPORT. The display-enable query (spec/40_query.md rules R100, R101), and UPDATE's closed form on the path that the
queried bit chooses (spec/41_update.md rule R130). -/

namespace Sys2Proof.Machine

/-! ## QEN -/

/-- The query writes nothing beside its return (R100). -/
theorem afterCommand_qen (s : State) : afterCommand .qen s = { s with ret := some (.bit (s.lcdc.getLsbD 7)) } := rfl

/-- LCDC holds the byte that WLCDC has stored (R155). -/
theorem afterCommand_wlcdc_lcdc (v : Byte) (s : State) : (afterCommand (.wlcdc v) s).lcdc = v := rfl

/-- Settles O12: the row of the code 0010 is QEN's, its return is read from LCDC alone, and WLCDC sets LCDC. -/
theorem qenReturnsDisplayEnable : Obligations.QenReturnsDisplayEnable := by
  unfold Obligations.QenReturnsDisplayEnable
  refine ⟨decode_opcode .qen, fun s => ?_, fun s v => ?_⟩
  · rw [exec_eq, afterCommand_qen]
  · refine ⟨_, _, exec_eq .., exec_eq .., ?_⟩
    rw [afterCommand_qen, afterCommand_wlcdc_lcdc]

/-! ## UPDATE's closed form on each path (R130) -/

/-- On the enabled path the two gates and the status byte of steps 3 to 7 are those of the closed form. -/
theorem updateEnabled_returning (s : State) : (updateEnabled s).returning none = enabledResult s := by
  rw [updateEnabled_eq, withCoincidence_withMode]
  rfl

theorem updateDisplayOff_returning (s : State) : (updateDisplayOff s).returning none = displayOffResult s := rfl

theorem afterCommand_update_of_enabled {s : State} (h : s.lcdc.getLsbD 7 = true) :
    afterCommand .update s = enabledResult s :=
  (congrArg (State.returning · none) (update_of_enabled s h)).trans (updateEnabled_returning s)

theorem afterCommand_update_of_disabled {s : State} (h : s.lcdc.getLsbD 7 = false) :
    afterCommand .update s = displayOffResult s :=
  (congrArg (State.returning · none) (update_of_disabled s h)).trans (updateDisplayOff_returning s)

/-- `LCDC[7]` chooses UPDATE's path (R112). -/
theorem afterCommand_update (s : State) :
    afterCommand .update s = if s.lcdc.getLsbD 7 then enabledResult s else displayOffResult s := by
  cases h : s.lcdc.getLsbD 7 with
  | true => exact afterCommand_update_of_enabled h
  | false => exact afterCommand_update_of_disabled h

/-- Settles O13: both commands read `LCDC[7]`, the one as its return and the other as its path. -/
theorem qenAgreesWithUpdatePath : Obligations.QenAgreesWithUpdatePath := by
  unfold Obligations.QenAgreesWithUpdatePath
  intro s
  refine ⟨s.lcdc.getLsbD 7, afterCommand .qen s, exec_eq .qen s, ?_, ?_⟩
  · rw [afterCommand_qen]
  · rw [exec_eq, afterCommand_update]

end Sys2Proof.Machine
end

section
/-! SUPPORT. The two request gates of UPDATE and what they append to the log (spec/41_update.md rules R122, R127, R128),
on either path and inside every command that performs an UPDATE. -/

namespace Sys2Proof.Machine

/-- The UPDATE command is the transition, and returns nothing (R110). -/
theorem exec_update (s : State) : exec .update s = .next ((update s).returning none) := rfl

/-! ## The tag and the enable bits that the mode gate reads -/

theorem edgeTag_of_ne_hblank (c : Params) {m : Mode} (h : m ≠ .hblank) : edgeTag c m = modeCode m := by
  cases m
  case hblank => exact absurd rfl h
  all_goals rfl

/-- With the default tag every mode's tag is its code (R121). -/
theorem edgeTag_of_default {c : Params} (h : c.hblankEdgeTag = 0#2) (m : Mode) : edgeTag c m = modeCode m := by
  cases m
  case hblank => exact h
  all_goals rfl

/-- No mode but V-Blank has V-Blank's code as its tag, under either admissible tag of H-Blank. -/
theorem edgeTag_ne_vblankCode {c : Params} (hc : c.Ok) {m : Mode} (h : m ≠ .vblank) :
    edgeTag c m ≠ modeCode .vblank := by
  obtain ⟨-, -, -, -, -, htag⟩ := hc
  cases m
  case vblank => exact absurd rfl h
  case hblank => rcases htag with htag | htag <;> (rw [edgeTag, htag]; decide)
  all_goals simp [edgeTag, modeCode]

/-- The mode enables stand in `STAT[7:3]` (R71). -/
theorem modeEnable_of_upperBits {v v' : Byte} (h : v'.extractLsb' 3 5 = v.extractLsb' 3 5) (m : Mode) :
    modeEnable v' m = modeEnable v m := by
  cases m
  case transfer => rfl
  all_goals exact bit_of_upperBits v v' h _ (by decide)

/-! ## The gates -/

/-- The mode edge (R122). -/
theorem modeGate_eq_true_iff (s : State) : modeGate s = true ↔
    modeEnable s.stat (modeOf s) = true ∧ edgeTag s.cfg (modeOf s) ≠ s.stat.extractLsb' 0 2 := by
  simp [modeGate, modeEdge, modeField]

/-- The level gate (R127). -/
theorem lycGate_eq_true_iff (s : State) : lycGate s = true ↔ s.ly = s.lyc ∧ s.stat.getLsbD 6 = true := by
  simp [lycGate, lycEnable, bit]

/-! ## What UPDATE appends to the log -/

theorem update_irqlog_of_enabled (s : State) (h : s.lcdc.getLsbD 7 = true) :
    (update s).irqlog = s.irqlog ++ requestsFrom s.irqlog.length (modeGate s) (lycGate s) := by
  rw [update_of_enabled s h, updateEnabled_eq]

theorem update_irqlog_of_disabled (s : State) (h : s.lcdc.getLsbD 7 = false) : (update s).irqlog = s.irqlog := by
  rw [update_of_disabled s h, updateDisplayOff_irqlog]

theorem countOf_mode_update_of_enabled (s : State) (h : s.lcdc.getLsbD 7 = true) :
    countOf .mode (update s).irqlog = countOf .mode s.irqlog + if modeGate s then 1 else 0 := by
  rw [update_irqlog_of_enabled s h, countOf_append, countOf_mode_requestsFrom]

theorem countOf_lyc_update_of_enabled (s : State) (h : s.lcdc.getLsbD 7 = true) :
    countOf .lyc (update s).irqlog = countOf .lyc s.irqlog + if lycGate s then 1 else 0 := by
  rw [update_irqlog_of_enabled s h, countOf_append, countOf_lyc_requestsFrom]

theorem countOf_mode_update_le (s : State) : countOf .mode (update s).irqlog ≤ countOf .mode s.irqlog + 1 := by
  cases h : s.lcdc.getLsbD 7 with
  | true =>
    rw [countOf_mode_update_of_enabled s h]
    split <;> omega
  | false =>
    rw [update_irqlog_of_disabled s h]
    exact Nat.le_succ _

end Sys2Proof.Machine
end

section
/-! SUPPORT. UPDATE keeps the enable bits, LCDC and LYC, and every run without a WSTAT keeps `STAT[6:3]`
(spec/41_update.md rule R131). -/

namespace Sys2Proof.Machine

/-- What a step keeps whenever the command it performs meets `P`, a run keeps whenever all the commands it performs
meet `P`. -/
theorem runs_keep {α : Type} (f : State → α) (P : CmdWord → Prop)
    (hstep : ∀ s t, step s = .next t → (∀ w ∈ s.pending.take 1, P w) → f t = f s) :
    ∀ k s t, Runs k s t → (∀ w ∈ s.pending.take k, P w) → f t = f s := by
  refine runs_induction (fun k s t => (∀ w ∈ s.pending.take k, P w) → f t = f s) (fun _ _ => rfl) ?_
  intro k s u t hsu _ ih hP
  rw [Nat.add_comm k 1, List.take_add, List.forall_mem_append, ← step_pending s u hsu] at hP
  obtain ⟨hfirst, hlater⟩ := hP
  exact (ih hlater).trans (hstep s u hsu hfirst)

/-- A step that performs no WSTAT keeps `STAT[7:3]` (R25, R131). -/
theorem step_stat_upper_of_noWstat (s t : State) (h : step s = .next t) (hn : NoWstatWithin 1 s) :
    t.stat.extractLsb' 3 5 = s.stat.extractLsb' 3 5 := by
  obtain ⟨-, rfl⟩ | ⟨w, rest, i, hp, hd, he⟩ | ⟨w, rest, op, -, -, rfl⟩ := step_cases s t h
  · rfl
  · have hi : ∀ v, i ≠ .wstat v := by
      rintro v rfl
      exact hn w (by simp [hp]) v hd
    rw [exec_eq] at he
    cases he
    rw [afterCommand_stat_upper, afterStore_stat hi]
  · rfl

/-- `STAT[6:3]` lie within `STAT[7:3]`. -/
theorem enableBits_of_upperBits {v v' : Byte} (h : v'.extractLsb' 3 5 = v.extractLsb' 3 5) :
    v'.extractLsb' 3 4 = v.extractLsb' 3 4 := by
  ext n hn
  rw [BitVec.getElem_extractLsb', BitVec.getElem_extractLsb']
  exact bit_of_upperBits v v' h (3 + n) (Nat.le_add_right 3 n)

/-- Settles O26: UPDATE writes `STAT[2:0]` alone of the three registers, and over a run without a WSTAT every step keeps
`STAT[7:3]`. -/
theorem enableBitsPreserved : Obligations.EnableBitsPreserved := by
  unfold Obligations.EnableBitsPreserved
  constructor
  · intro s
    exact ⟨_, exec_update s, update_stat_upper s, update_lcdc s, update_lyc s⟩
  · intro k s t hrun hn
    exact enableBits_of_upperBits
      (runs_keep (fun s => s.stat.extractLsb' 3 5) _ step_stat_upper_of_noWstat k s t hrun hn)

end Sys2Proof.Machine
end

section
/-! SUPPORT. What one UPDATE does, on both paths (spec/41_update.md rules R113, R117, R119, R122 to R128, R130, R132). -/

namespace Sys2Proof.Machine

/-! ## The closed form and the display-off path -/

/-- Settles O14: `LCDC[7]` chooses between the two closed forms. -/
theorem updateClosedForm : Obligations.UpdateClosedForm := by
  unfold Obligations.UpdateClosedForm
  intro s
  rw [exec_eq, afterCommand_update]

theorem exec_update_of_disabled {s : State} (h : s.lcdc.getLsbD 7 = false) :
    exec .update s = .next (displayOffResult s) := by
  rw [exec_eq, afterCommand_update_of_disabled h]

theorem withMode_withMode (v : Byte) (m m' : Mode) : withMode (withMode v m) m' = withMode v m' := by
  have hcode : (modeCode m).setWidth 8 &&& 0xFC#8 = 0#8 := by cases m <;> decide
  simp [withMode, BitVec.and_or_distrib_right, BitVec.and_assoc, hcode]

/-- The display-off path runs the same way on what it has written. -/
theorem displayOffResult_displayOffResult (s : State) : displayOffResult (displayOffResult s) = displayOffResult s :=
  congrArg (fun v => { displayOffResult s with stat := v }) (withMode_withMode s.stat .vblank .vblank)

/-- Settles O15: the display-off path writes the mode bits alone of STAT, and writing them again changes nothing. -/
theorem displayOffUpdate : Obligations.DisplayOffUpdate := by
  unfold Obligations.DisplayOffUpdate
  intro s hoff
  refine ⟨displayOffResult s, exec_update_of_disabled hoff, rfl, upperBits_withMode s.stat .vblank, ?_⟩
  have hoff' : (displayOffResult s).lcdc.getLsbD 7 = false := hoff
  rw [exec_update_of_disabled hoff', displayOffResult_displayOffResult]

/-! ## The multiplexer and STAT -/

theorem mux_eq (c : Params) (ly : Byte) (b : Budget) (st : Byte) :
    mux c ly b st = (muxMode c ly b, modeEnable st (muxMode c ly b)) := rfl

/-- The thresholds `t < o` and line 144 cut lines and budgets into four disjoint windows (R119). -/
theorem one_window {t o : Int} (horder : t < o) (ly : Nat) (b : Int) :
    [decide (144 ≤ ly), decide (ly < 144 ∧ o ≤ b), decide (ly < 144 ∧ t ≤ b ∧ b < o),
      decide (ly < 144 ∧ b < t)].count true = 1 := by
  rcases Nat.lt_or_ge ly 144 with hly | hly
  · have hvisible : ¬ 144 ≤ ly := hly.not_ge
    rcases lt_or_ge b t with hb | hb
    · simp [hly, hvisible, hb, hb.not_ge, (hb.trans horder).not_ge]
    rcases lt_or_ge b o with hb' | hb'
    · simp [hly, hvisible, hb, hb', hb.not_gt, hb'.not_ge]
    · simp [hly, hvisible, hb', hb.not_gt, hb'.not_gt]
  · simp [hly, hly.not_gt]

/-- Settles O16: the enable is that of the window's mode, and the windows are disjoint and cover every input. -/
theorem muxIsTotalFunction : Obligations.MuxIsTotalFunction := by
  unfold Obligations.MuxIsTotalFunction
  intro c ly b st hc
  have hwindow : [decide (144 ≤ ly.toNat), decide (ly.toNat < 144 ∧ c.tOam ≤ b.toInt),
      decide (ly.toNat < 144 ∧ c.tTransfer ≤ b.toInt ∧ b.toInt < c.tOam),
      decide (ly.toNat < 144 ∧ b.toInt < c.tTransfer)].count true = 1 := by
    obtain ⟨-, horder, -⟩ := hc
    exact one_window horder ly.toNat b.toInt
  refine ⟨?_, ?_, ?_, ?_, hwindow, fun _ => rfl⟩
  · intro hly
    rw [mux_eq, muxMode_vblank c ly b hly]; rfl
  · rintro ⟨hly, hb⟩
    rw [mux_eq, muxMode_oamSearch c hly hb]; rfl
  · rintro ⟨hly, hb, hb'⟩
    rw [mux_eq, muxMode_transfer c hly hb hb']; rfl
  · rintro ⟨hly, hb⟩
    rw [mux_eq, muxMode_hblank hc hly hb]; rfl

/-- The display-off path leaves the scan at its start, in V-Blank's code (R113). -/
theorem scanFrozen_update (s : State) (h : s.lcdc.getLsbD 7 = false) : ScanFrozen (update s) := by
  rw [update_of_disabled s h]
  exact ⟨updateDisplayOff_ly s, updateDisplayOff_budget s, modeField_withMode s.stat .vblank⟩

/-- The flag is the comparison of the registers that UPDATE read (R125, R126). -/
theorem update_coincidence_of_enabled (s : State) (h : s.lcdc.getLsbD 7 = true) :
    (update s).stat.getLsbD 2 = (s.ly == s.lyc) := by
  have hfresh := coincidenceFresh_update s h
  rwa [CoincidenceFresh, update_ly_of_enabled s h, update_lyc] at hfresh

/-- Settles O18: the enabled path writes the mode and the flag, the display-off path freezes the scan. -/
theorem statusAfterUpdate : Obligations.StatusAfterUpdate := by
  unfold Obligations.StatusAfterUpdate
  intro s
  refine ⟨_, exec_update s, fun hon => ⟨update_modeField_of_enabled s hon, update_coincidence_of_enabled s hon⟩,
    fun hoff => ?_⟩
  obtain ⟨hly, hbudget, hmode⟩ := scanFrozen_update s hoff
  exact ⟨hmode, hly, hbudget⟩

/-- Step 6 sets or clears bit 2 by its mask (R126). -/
theorem withCoincidence_eq (v : Byte) (eq : Bool) : withCoincidence v eq = if eq then v ||| 0x04#8 else v &&& 0xFB#8 := by
  cases eq <;> rfl

/-- Settles O23: the flag is the comparison of the two bytes, and bits 7:3 are kept. -/
theorem coincidenceComparator : Obligations.CoincidenceComparator := by
  unfold Obligations.CoincidenceComparator
  intro s hon
  refine ⟨_, exec_update s, ?_, bit_of_upperBits _ _ (update_stat_upper s), withCoincidence_eq⟩
  rw [returning_stat, update_coincidence_of_enabled s hon, Bool.beq_eq_decide_eq]
  exact decide_eq_decide.2 BitVec.toNat_inj.symm

/-! ## The requests of one UPDATE -/

/-- Settles O24: the level gate alone decides. -/
theorem coincidenceRequest : Obligations.CoincidenceRequest := by
  unfold Obligations.CoincidenceRequest
  intro s hon
  refine ⟨_, exec_update s, ?_⟩
  rw [returning_irqlog, countOf_lyc_update_of_enabled s hon]
  simp only [lycGate_eq_true_iff]

theorem edgeTag_eq (c : Params) (m : Mode) :
    edgeTag c m = if m = .hblank then c.hblankEdgeTag else modeCode m := by
  cases m <;> rfl

/-- Settles O25: the two gates on the enabled path, none on the other. -/
theorem requestOrderAndNumber : Obligations.RequestOrderAndNumber := by
  unfold Obligations.RequestOrderAndNumber
  intro s
  cases hpath : s.lcdc.getLsbD 7 with
  | true =>
    refine ⟨_, modeGate s, lycGate s, exec_update s, update_irqlog_of_enabled s hpath, nofun, fun _ => ⟨?_, ?_⟩⟩
    · rw [modeGate_eq_true_iff, edgeTag_eq]
    · exact lycGate_eq_true_iff s
  | false =>
    refine ⟨_, false, false, exec_update s, ?_, fun _ => ⟨rfl, rfl⟩, nofun⟩
    rw [returning_irqlog, update_irqlog_of_disabled s hpath, requestsFrom_none, List.append_nil]

/-- The mode edge under the default tag (R122). -/
theorem modeGate_of_default {s : State} (htag : s.cfg.hblankEdgeTag = 0#2) :
    modeGate s = (modeEnable s.stat (modeOf s) && s.stat.extractLsb' 0 2 != modeCode (modeOf s)) := by
  rw [modeGate, modeEdge, edgeTag_of_default htag, bne_comm]
  rfl

/-- Settles O20: the mode gate, whose tag is by default the code that UPDATE writes. -/
theorem modeRequestIffModeChanged : Obligations.ModeRequestIffModeChanged := by
  unfold Obligations.ModeRequestIffModeChanged
  intro s hon
  refine ⟨_, modeGate s, lycGate s, exec_update s, update_irqlog_of_enabled s hon, modeGate_eq_true_iff s,
    fun htag => ⟨?_, ?_⟩⟩
  · rw [modeGate_of_default htag]
    cases modeOf s <;> rfl
  · rw [returning_stat, update_modeField_of_enabled s hon, modeGate_eq_true_iff, edgeTag_of_default htag]
    rfl

/-- Transfer has no enable bit (R117). -/
theorem modeGate_of_transfer {s : State} (h : modeOf s = .transfer) : modeGate s = false := by
  rw [modeGate, h]
  rfl

/-- Settles O21: the window's mode is Transfer, and the mode gate is closed to it. -/
theorem transferNeverRequests : Obligations.TransferNeverRequests := by
  unfold Obligations.TransferNeverRequests
  intro s hon hly hb hb'
  have hmode : modeOf s = .transfer := muxMode_transfer s.cfg hly hb hb'
  refine ⟨_, exec_update s, ?_, ?_⟩
  · exact (update_modeField_of_enabled s hon).trans (congrArg modeCode hmode)
  · rw [returning_irqlog, countOf_mode_update_of_enabled s hon, modeGate_of_transfer hmode]
    rfl

/-! ## The source quirk `HBLANK_EDGE_TAG = 2` (R124) -/

/-- In H-Blank the quirk's gate tests for OAM-search's code. -/
theorem modeGate_of_quirk {s : State} (htag : s.cfg.hblankEdgeTag = 2#2) (hmode : modeOf s = .hblank)
    (hen : s.stat.getLsbD 3 = true) : modeGate s = true ↔ s.stat.extractLsb' 0 2 ≠ 0b10#2 := by
  have henable : modeEnable s.stat .hblank = true := hen
  have htag' : edgeTag s.cfg .hblank = 0b10#2 := htag
  rw [modeGate_eq_true_iff, hmode, htag']
  exact (and_iff_right henable).trans ne_comm

/-- An enabled UPDATE changes nothing that the multiplexer reads. -/
theorem modeOf_update (s : State) (h : s.lcdc.getLsbD 7 = true) : modeOf (update s) = modeOf s := by
  simp only [modeOf, update_cfg, update_ly_of_enabled s h, update_budget_of_enabled s h]

/-- Inside H-Blank the quirk's gate is open to a further UPDATE: the one before it left the previous mode 0. -/
theorem modeGate_update_of_quirk {s : State} (hon : s.lcdc.getLsbD 7 = true) (htag : s.cfg.hblankEdgeTag = 2#2)
    (hmode : modeOf s = .hblank) (hen : s.stat.getLsbD 3 = true) : modeGate (update s) = true := by
  have htag' : (update s).cfg.hblankEdgeTag = 2#2 := by rw [update_cfg, htag]
  have hen' : (update s).stat.getLsbD 3 = true :=
    (bit_of_upperBits _ _ (update_stat_upper s) 3 le_rfl).trans hen
  have hprev : (update s).stat.extractLsb' 0 2 = 0b00#2 :=
    (update_modeField_of_enabled s hon).trans (congrArg modeCode hmode)
  rw [modeGate_of_quirk htag' ((modeOf_update s hon).trans hmode) hen', hprev]
  decide

/-- Outside H-Blank the tag has no effect. -/
theorem update_withTag {s : State} (hon : s.lcdc.getLsbD 7 = true) (h : modeOf s ≠ .hblank) (tag : BitVec 2) :
    update (withParams s { s.cfg with hblankEdgeTag := tag }) =
      withParams (update s) { s.cfg with hblankEdgeTag := tag } := by
  have hgate : modeGate (withParams s { s.cfg with hblankEdgeTag := tag }) = modeGate s := by
    have hmode : modeOf (withParams s { s.cfg with hblankEdgeTag := tag }) = modeOf s := rfl
    rw [modeGate, modeGate, modeEdge, modeEdge, hmode, edgeTag_of_ne_hblank _ h, edgeTag_of_ne_hblank _ h]
    rfl
  have hon' : (withParams s { s.cfg with hblankEdgeTag := tag }).lcdc.getLsbD 7 = true := hon
  rw [update_of_enabled s hon, update_of_enabled _ hon', updateEnabled_eq, updateEnabled_eq, hgate]
  rfl

/-- Settles O22: in H-Blank the quirk's gate, before and after the first UPDATE; the other modes' gates do not read the
tag. -/
theorem quirkTagRequests : Obligations.QuirkTagRequests := by
  unfold Obligations.QuirkTagRequests
  intro s hon htag
  refine ⟨fun hmode hen => ?_, fun hmode => ⟨_, exec_update s, ?_⟩, fun hmode hen hprev => ⟨_, exec_update s, ?_⟩⟩
  · have hon' : ((update s).returning none).lcdc.getLsbD 7 = true := by rw [returning_lcdc, update_lcdc, hon]
    have hagain : modeGate ((update s).returning none) = true := modeGate_update_of_quirk hon htag hmode hen
    refine ⟨_, _, exec_update s, exec_update _, ?_, ?_⟩
    · rw [returning_irqlog, countOf_mode_update_of_enabled s hon]
      simp only [modeGate_of_quirk htag hmode hen, ne_eq, ite_not]
    · rw [returning_irqlog, countOf_mode_update_of_enabled _ hon', hagain]
      rfl
  · exact congrArg (fun t => Host.Outcome.next (t.returning none)) (update_withTag hon hmode 0#2)
  · have hgate : modeGate s = true := by
      rw [modeGate_eq_true_iff, hmode, hprev]
      exact ⟨hen, by simp [edgeTag, modeCode]⟩
    rw [returning_irqlog, countOf_mode_update_of_enabled s hon, hgate]
    rfl

end Sys2Proof.Machine
end

section
/-! SUPPORT. Several UPDATEs one after the other: the mode edge requests once (spec/41_update.md rule R133), the level
requests every time (rule R134). -/

namespace Sys2Proof.Machine

/-! ## The edge -/

theorem modeField_storedStat (old v : Byte) : (storedStat old v).extractLsb' 0 2 = old.extractLsb' 0 2 := by
  have h := congrArg (fun x => x.extractLsb' 0 2) (lowBits_storedStat old v)
  simpa using h

/-- No command's own store touches the previous mode (R25). -/
theorem afterStore_modeField (i : Instr) (s : State) :
    (afterStore i s).stat.extractLsb' 0 2 = s.stat.extractLsb' 0 2 := by
  cases i
  case wstat v => exact modeField_storedStat s.stat v
  all_goals rfl

/-- Under the default tag an UPDATE that leaves the mode bits as they were makes no mode request. -/
theorem countOf_mode_update_of_sameMode {s : State} (htag : s.cfg.hblankEdgeTag = 0#2)
    (h : (update s).stat.extractLsb' 0 2 = s.stat.extractLsb' 0 2) :
    countOf .mode (update s).irqlog = countOf .mode s.irqlog := by
  cases hpath : s.lcdc.getLsbD 7 with
  | true =>
    have hcode : s.stat.extractLsb' 0 2 = modeCode (modeOf s) := h.symm.trans (update_modeField_of_enabled s hpath)
    have hgate : modeGate s = false := by rw [modeGate_of_default htag, hcode, bne_self_eq_false, Bool.and_false]
    rw [countOf_mode_update_of_enabled s hpath, hgate]
    rfl
  | false => rw [update_irqlog_of_disabled s hpath]

/-- A run that performs no UPDATE writes neither STAT nor the log (R25, R151). -/
theorem runs_stat_irqlog_of_noUpdate (k : Nat) (s t : State) (h : Runs k s t) (hn : NoUpdateWithin k s) :
    t.stat = s.stat ∧ t.irqlog = s.irqlog := by
  have hkeep := runs_keep (fun s => (s.stat, s.irqlog)) (fun w => ∀ i, decode w = .instr i → performsUpdate i = false)
    (fun s t hstep hn => Prod.ext_iff.2 (step_stat_irqlog_of_noUpdate s t hstep hn)) k s t h hn
  exact Prod.ext_iff.1 hkeep

/-- Settles O27: the previous mode of the second UPDATE is the mode that the first one wrote. -/
theorem edgeTriggeredOnce : Obligations.EdgeTriggeredOnce := by
  unfold Obligations.EdgeTriggeredOnce
  intro i j k s t u v htag hi hj hst hrun hn huv hmode
  obtain ⟨hstat, hlog⟩ := runs_stat_irqlog_of_noUpdate k t u hrun hn
  have hcfg : u.cfg.hblankEdgeTag = 0#2 := by
    rw [configurationNeverChanges k t u hrun, exec_cfg i s t hst, htag]
  rw [exec_eq, afterCommand_of_update hi] at hst
  rw [exec_eq, afterCommand_of_update hj] at huv
  cases hst
  cases huv
  have hsecond : countOf .mode (update (afterStore j u)).irqlog = countOf .mode u.irqlog := by
    rw [← afterStore_irqlog j u]
    apply countOf_mode_update_of_sameMode
    · rw [afterStore_cfg, hcfg]
    · rw [afterStore_modeField, hstat]
      exact hmode
  have hfirst : countOf .mode (update (afterStore i s)).irqlog ≤ countOf .mode s.irqlog + 1 := by
    rw [← afterStore_irqlog i s]
    exact countOf_mode_update_le _
  refine ⟨hsecond, ?_⟩
  rw [returning_irqlog, hsecond, hlog]
  exact hfirst

/-! ## The level -/

/-- The level gate stays open: the display is enabled, LY and LYC hold the same line, `STAT[6]` is set. -/
structure LevelOpen (f : LyWriteFn) (line : Byte) (s : State) : Prop where
  displayOn : s.lcdc.getLsbD 7 = true
  ly : s.ly = line
  lyc : s.lyc = line
  enable : s.stat.getLsbD 6 = true
  lyWrite : s.cfg.lyWrite = f

/-- A command that performs an UPDATE and whose own store leaves the level gate open at this line. -/
def KeepsLevel (f : LyWriteFn) (line : Byte) (i : Instr) : Prop :=
  i = .update ∨ (∃ v, i = .wstat v ∧ v.getLsbD 6 = true) ∨ (∃ v, i = .wly v ∧ lyStored f line v = line)

theorem performsUpdate_of_keepsLevel {f : LyWriteFn} {line : Byte} {i : Instr} (h : KeepsLevel f line i) :
    performsUpdate i = true := by
  obtain rfl | ⟨v, rfl, -⟩ | ⟨v, rfl, -⟩ := h <;> rfl

theorem wf_of_keepsLevel {f : LyWriteFn} {line : Byte} {i : Instr} (h : KeepsLevel f line i) : i.wf = true := by
  obtain rfl | ⟨v, rfl, -⟩ | ⟨v, rfl, -⟩ := h <;> rfl

theorem levelOpen_afterStore {f : LyWriteFn} {line : Byte} {i : Instr} {s : State} (h : LevelOpen f line s)
    (hi : KeepsLevel f line i) : LevelOpen f line (afterStore i s) := by
  obtain rfl | ⟨v, rfl, hv⟩ | ⟨v, rfl, hv⟩ := hi
  · exact h
  · have henable : (storedStat s.stat v).getLsbD 6 = true :=
      (bit_of_upperBits v _ (upperBits_storedStat s.stat v) 6 (by decide)).trans hv
    exact ⟨h.displayOn, h.ly, h.lyc, henable, h.lyWrite⟩
  · have hly : lyStored s.cfg.lyWrite s.ly v = line := by rw [h.lyWrite, h.ly, hv]
    exact ⟨h.displayOn, hly, h.lyc, h.enable, h.lyWrite⟩

theorem levelOpen_update {f : LyWriteFn} {line : Byte} {s : State} (h : LevelOpen f line s) :
    LevelOpen f line (update s) where
  displayOn := by rw [update_lcdc, h.displayOn]
  ly := by rw [update_ly_of_enabled s h.displayOn, h.ly]
  lyc := by rw [update_lyc, h.lyc]
  enable := (bit_of_upperBits _ _ (update_stat_upper s) 6 (by decide)).trans h.enable
  lyWrite := by rw [update_cfg, h.lyWrite]

theorem lycGate_of_levelOpen {f : LyWriteFn} {line : Byte} {s : State} (h : LevelOpen f line s) : lycGate s = true :=
  (lycGate_eq_true_iff s).2 ⟨h.ly.trans h.lyc.symm, h.enable⟩

/-- A command that keeps the level gate open makes one coincidence request. -/
theorem afterCommand_of_keepsLevel {f : LyWriteFn} {line : Byte} {i : Instr} {s : State} (h : LevelOpen f line s)
    (hi : KeepsLevel f line i) : LevelOpen f line (afterCommand i s) ∧
      countOf .lyc (afterCommand i s).irqlog = countOf .lyc s.irqlog + 1 := by
  have hstore := levelOpen_afterStore h hi
  have hupdate := levelOpen_update hstore
  rw [afterCommand_of_update (performsUpdate_of_keepsLevel hi)]
  constructor
  · exact ⟨hupdate.displayOn, hupdate.ly, hupdate.lyc, hupdate.enable, hupdate.lyWrite⟩
  · rw [returning_irqlog, countOf_lyc_update_of_enabled _ hstore.displayOn, lycGate_of_levelOpen hstore,
      afterStore_irqlog]
    rfl

/-- A run of commands that keep the level gate open makes one coincidence request each (R134). -/
theorem runs_of_keepsLevel {f : LyWriteFn} {line : Byte} {is : List Instr} (his : ∀ i ∈ is, KeepsLevel f line i)
    {s : State} {rest : List CmdWord} (h : LevelOpen f line s) (hp : s.pending = is.map encode ++ rest) :
    ∃ t, Runs is.length s t ∧ countOf .lyc t.irqlog = countOf .lyc s.irqlog + is.length ∧ t.pending = rest := by
  induction is generalizing s with
  | nil => exact ⟨s, (runs_zero s s).2 rfl, rfl, hp⟩
  | cons i is ih =>
    obtain ⟨hi, his⟩ := List.forall_mem_cons.1 his
    have hopen : LevelOpen f line { s with pending := is.map encode ++ rest } :=
      ⟨h.displayOn, h.ly, h.lyc, h.enable, h.lyWrite⟩
    obtain ⟨hopen', hcount⟩ := afterCommand_of_keepsLevel hopen hi
    have hstep := step_of_instr hp (decode_encode (wf_of_keepsLevel hi))
    rw [exec_eq] at hstep
    obtain ⟨t, hrun, hcount', hrest⟩ := ih his hopen' (exec_pending i _ _ (exec_eq ..))
    refine ⟨t, (runs_succ ..).2 ⟨_, hstep, hrun⟩, ?_, hrest⟩
    rw [hcount', hcount, List.length_cons, Nat.add_assoc, Nat.add_comm 1]

/-- Settles O29, by induction on the list of commands: each one's store keeps the level gate open for its UPDATE. -/
theorem levelRequestEveryUpdate : Obligations.LevelRequestEveryUpdate := by
  unfold Obligations.LevelRequestEveryUpdate
  intro is s rest hon hly hen his hp
  have hopen : LevelOpen s.cfg.lyWrite s.ly s := ⟨hon, rfl, hly.symm, hen, rfl⟩
  rw [← hly] at his
  exact runs_of_keepsLevel his hopen hp

end Sys2Proof.Machine
end

section
/-! SUPPORT. The commands that perform an UPDATE on a disabled display and on one that is enabled again (spec/41_update.md
rules R113, R123; spec/60_exceptions.md rule R192), and WSTAT in closed form (spec/42_environment.md rule R157). -/

namespace Sys2Proof.Machine

theorem ne_wlyc_of_update {i : Instr} (h : performsUpdate i = true) (v : Byte) : i ≠ .wlyc v := by
  rintro rfl; cases h

/-- Settles O31: the store of each leaves LCDC, LYC and the flag alone, and its UPDATE takes the display-off path. -/
theorem updatingCommandsWhileDisabled : Obligations.UpdatingCommandsWhileDisabled := by
  unfold Obligations.UpdatingCommandsWhileDisabled
  intro i s hi hoff
  have hoff' : (afterStore i s).lcdc.getLsbD 7 = false := (displayEnable_afterStore hi s).trans hoff
  refine ⟨afterCommand i s, exec_eq i s, ?_, ?_, afterCommand_lcdc (ne_wlcdc_of_update hi) s,
    afterCommand_lyc (ne_wlyc_of_update hi) s, ?_⟩
  all_goals rw [afterCommand_of_update hi]
  · exact scanFrozen_update _ hoff'
  · rw [returning_irqlog, update_irqlog_of_disabled _ hoff', afterStore_irqlog]
  · rw [returning_stat, update_coincidence_of_disabled _ hoff', afterStore_coincidence]

/-! ## The display enabled again -/

/-- The first enabled UPDATE after a display-off one, if it derives another mode than V-Blank, finds an edge: the
previous mode is 1 (R123). -/
theorem update_after_displayOff {s : State} {old : Byte} {m : Mode} (hc : s.cfg.Ok) (hon : s.lcdc.getLsbD 7 = true)
    (hstat : s.stat = withMode old .vblank) (hmode : modeOf s = m) (hm : m ≠ .vblank) :
    (update s).stat.extractLsb' 0 2 = modeCode m ∧
      countOf .mode (update s).irqlog = countOf .mode s.irqlog + if modeEnable old m then 1 else 0 := by
  have hprev : s.stat.extractLsb' 0 2 = modeCode .vblank := by
    rw [hstat]
    exact modeField_withMode old .vblank
  have hgate : modeGate s = true ↔ modeEnable old m = true := by
    rw [modeGate_eq_true_iff, hmode, hprev, and_iff_left (edgeTag_ne_vblankCode hc hm), hstat,
      modeEnable_of_upperBits (upperFive_withMode old .vblank)]
  constructor
  · exact (update_modeField_of_enabled s hon).trans (congrArg modeCode hmode)
  · rw [countOf_mode_update_of_enabled s hon]
    simp only [hgate]

/-- The state after a display-off UPDATE and a WLCDC. -/
def enabledAgain (s : State) (v : Byte) : State := { displayOffResult s with lcdc := v }

theorem exec_wlcdc_displayOffResult (s : State) (v : Byte) :
    exec (.wlcdc v) (displayOffResult s) = .next (enabledAgain s v) := rfl

/-- The state after a RELOAD (R152). -/
def reloaded (s : State) : State := { s with budget := lineTotal s.cfg, ret := none }

theorem exec_reload (s : State) : exec .reload s = .next (reloaded s) := rfl

/-- LY being 0, the total that RELOAD loads selects OAM-search (R212). -/
theorem modeOf_reloaded_enabledAgain {s : State} (hc : s.cfg.Ok) (v : Byte) :
    modeOf (reloaded (enabledAgain s v)) = .oamSearch := by
  have hly : (0#8).toNat < 144 := by decide
  have htotal : (lineTotal s.cfg).toInt = s.cfg.tLine := lineTotal_toInt s.cfg hc
  obtain ⟨-, -, hline, -⟩ := hc
  exact muxMode_oamSearch s.cfg hly (hline.trans_eq htotal.symm)

/-- LY being 0, the budget 0 that the display-off path leaves selects H-Blank (R225). -/
theorem modeOf_enabledAgain {s : State} (hc : s.cfg.Ok) (v : Byte) : modeOf (enabledAgain s v) = .hblank := by
  have hly : (0#8).toNat < 144 := by decide
  have hpos : 0 < s.cfg.tTransfer := hc.1
  exact muxMode_hblank hc hly hpos

/-- Settles O32: LY is 0, so the budget alone chooses the mode: `T_LINE` after the RELOAD, 0 without it. -/
theorem enableAfterDisplayOff : Obligations.EnableAfterDisplayOff := by
  unfold Obligations.EnableAfterDisplayOff
  intro s v hc hoff hv
  have honB : (enabledAgain s v).lcdc.getLsbD 7 = true := hv
  have honC : (reloaded (enabledAgain s v)).lcdc.getLsbD 7 = true := hv
  obtain ⟨hmodeC, hcountC⟩ := update_after_displayOff (s := reloaded (enabledAgain s v)) (old := s.stat) hc honC rfl
    (modeOf_reloaded_enabledAgain hc v) (by decide)
  obtain ⟨hmodeB, hcountB⟩ := update_after_displayOff (s := enabledAgain s v) (old := s.stat) hc honB rfl
    (modeOf_enabledAgain hc v) (by decide)
  refine ⟨_, _, _, _, _, exec_update_of_disabled hoff, exec_wlcdc_displayOffResult s v,
    ⟨exec_reload _, exec_update _, update_ly_of_enabled _ honC, ?_, hmodeC, hcountC⟩,
    exec_update _, update_ly_of_enabled _ honB, hmodeB, hcountB⟩
  rw [returning_budget, update_budget_of_enabled _ honC]
  exact lineTotal_toInt s.cfg hc

/-! ## WSTAT in closed form -/

theorem storedStat_and_enables (old v : Byte) : storedStat old v &&& 0xF8#8 = v &&& 0xF8#8 := by
  simp [storedStat, BitVec.and_or_distrib_right, BitVec.and_assoc]

theorem withMode_storedStat_vblank (old v : Byte) :
    withMode (storedStat old v) .vblank = (v &&& 0xF8#8) ||| (old &&& 0x04#8) ||| 0x01#8 := by
  simp [withMode, storedStat, modeCode, BitVec.and_or_distrib_right, BitVec.and_assoc]

/-- The mode gate after WSTAT's store reads the operand's enable bits and the old previous mode. -/
theorem modeGate_afterStore_wstat (s : State) (v : Byte) : modeGate (afterStore (.wstat v) s) =
    (modeEnable v (modeOf s) && edgeTag s.cfg (modeOf s) != s.stat.extractLsb' 0 2) := by
  rw [← modeEnable_of_upperBits (upperBits_storedStat s.stat v), ← modeField_storedStat s.stat v]
  rfl

/-- The level gate after WSTAT's store reads the operand's bit 6. -/
theorem lycGate_afterStore_wstat (s : State) (v : Byte) :
    lycGate (afterStore (.wstat v) s) = (s.ly == s.lyc && v.getLsbD 6) := by
  rw [← bit_of_upperBits v _ (upperBits_storedStat s.stat v) 6 (by decide)]
  rfl

/-- Settles O41: UPDATE from the byte that WSTAT stores, whose enable bits are the operand's and whose previous mode and
flag are the old ones. -/
theorem wstatClosedForm : Obligations.WstatClosedForm := by
  unfold Obligations.WstatClosedForm
  intro s v
  have he := exec_eq (.wstat v) s
  refine ⟨afterCommand (.wstat v) s, he, afterCommand_lcdc (ne_wlcdc_of_update rfl) s,
    afterCommand_lyc (ne_wlyc_of_update rfl) s,
    exec_refused _ s _ he, exec_cfg _ s _ he, exec_pending _ s _ he, rfl, fun hon => ?_, fun hoff => ?_⟩
  all_goals rw [afterCommand_of_update rfl]
  · have hon' : (afterStore (.wstat v) s).lcdc.getLsbD 7 = true := hon
    refine ⟨update_ly_of_enabled _ hon', update_budget_of_enabled _ hon', ?_, ?_⟩
    · rw [returning_stat, update_of_enabled _ hon', updateEnabled_stat, withCoincidence_withMode,
        ← storedStat_and_enables s.stat v]
      rfl
    · rw [returning_irqlog, update_irqlog_of_enabled _ hon', modeGate_afterStore_wstat, lycGate_afterStore_wstat,
        afterStore_irqlog]
  · have hoff' : (afterStore (.wstat v) s).lcdc.getLsbD 7 = false := hoff
    obtain ⟨hly, hbudget, -⟩ := scanFrozen_update _ hoff'
    refine ⟨hly, hbudget, update_irqlog_of_disabled _ hoff', ?_⟩
    rw [returning_stat, update_of_disabled _ hoff']
    exact withMode_storedStat_vblank s.stat v

end Sys2Proof.Machine
end

section
/-! SUPPORT. The environment's operations (spec/42_environment.md rules R151 to R159): the budget's load and countdown,
the stores without an UPDATE, the two dispatching writes, and the register read. -/

namespace Sys2Proof.Machine

/-! ## The budget (R152, R153) -/

/-- An admissible total is at or above the OAM-search threshold, so on a visible line RELOAD selects OAM-search. -/
theorem modeOf_reloaded {s : State} (hc : s.cfg.Ok) (hly : s.ly.toNat < 144) : modeOf (reloaded s) = .oamSearch := by
  have htotal : (lineTotal s.cfg).toInt = s.cfg.tLine := lineTotal_toInt s.cfg hc
  obtain ⟨-, -, hline, -⟩ := hc
  exact muxMode_oamSearch s.cfg hly (hline.trans_eq htotal.symm)

/-- Settles O34: RELOAD is one store of the budget, and the UPDATE after it writes the code of the mode that the total
selects. -/
theorem reloadLoadsLineTotal : Obligations.ReloadLoadsLineTotal := by
  unfold Obligations.ReloadLoadsLineTotal
  refine ⟨decode_opcode .reload, exec_reload, fun s hc => lineTotal_toInt s.cfg hc, fun s hc hon hly => ?_⟩
  have hon' : (reloaded s).lcdc.getLsbD 7 = true := hon
  refine ⟨_, _, exec_reload s, exec_update _, ?_⟩
  exact (update_modeField_of_enabled _ hon').trans (congrArg modeCode (modeOf_reloaded hc hly))

theorem exec_advance (s : State) (n : Nat) :
    exec (.advance n) s = .next { s with budget := s.budget - BitVec.ofNat 32 n, ret := none } := by
  rw [← budgetAfter_eq_sub, exec_eq]
  rfl

/-- ADVANCE's arithmetic is one modulus off where the difference falls below the budget's range (R153). -/
theorem budgetAfter_toInt_of_wrap (b : Budget) (n : Nat) (hn : n < 2 ^ 32) (h : b.toInt - n < -(2 ^ 31)) :
    (budgetAfter b n).toInt = b.toInt - n + 2 ^ 32 := by
  have hb : -(2 ^ 31) ≤ b.toInt := BitVec.le_toInt b
  rw [budgetAfter, BitVec.toInt_ofInt, ← Int.add_bmod_right]
  exact Int.bmod_eq_of_le (by omega) (by omega)

/-- Settles O35: the difference is exact inside the budget's range, and one modulus off below it. -/
theorem advanceSubtractsModulo : Obligations.AdvanceSubtractsModulo := by
  unfold Obligations.AdvanceSubtractsModulo
  refine ⟨decode_opcode (.advance 0), exec_advance, fun s n hexact => ?_, fun s n hn hwrap => ?_, fun s => ?_⟩
  · rw [← budgetAfter_eq_sub]
    exact budgetAfter_toInt s.budget n hexact
  · rw [← budgetAfter_eq_sub]
    exact budgetAfter_toInt_of_wrap s.budget n hn hwrap
  · rw [exec_advance, BitVec.sub_zero]

/-- A run that begins with a command's word performs that command and goes on with the rest of the stream. -/
theorem runs_encode {i : Instr} (hi : i.wf = true) {k : Nat} {s t : State} {rest : List CmdWord}
    (hp : s.pending = encode i :: rest) (hrun : Runs k (afterCommand i { s with pending := rest }) t) :
    Runs (k + 1) s t :=
  (runs_succ ..).2 ⟨_, (step_of_instr hp (decode_encode hi)).trans (exec_eq ..), hrun⟩

/-- A run of ADVANCEs that together spend no more than the budget spends exactly their sum. -/
theorem runs_advances (ns : List Nat) (s : State) (rest : List CmdWord) (hsum : (ns.sum : Int) ≤ s.budget.toInt)
    (hp : s.pending = ns.map (fun n => encode (.advance n)) ++ rest) :
    ∃ t, Runs ns.length s t ∧ t.budget.toInt = s.budget.toInt - ns.sum := by
  induction ns generalizing s with
  | nil => exact ⟨s, (runs_zero s s).2 rfl, by simp⟩
  | cons n ns ih =>
    rw [List.sum_cons, Nat.cast_add] at hsum ⊢
    have hwf : (Instr.advance n).wf = true := by
      have hmax := BitVec.toInt_lt (x := s.budget)
      exact decide_eq_true (by omega)
    have hexact : (budgetAfter s.budget n).toInt = s.budget.toInt - n := budgetAfter_toInt s.budget n (by omega)
    have hleft : (ns.sum : Int) ≤ (budgetAfter s.budget n).toInt := by omega
    obtain ⟨t, hrun, ht⟩ :=
      ih (afterCommand (.advance n) { s with pending := ns.map (fun n => encode (.advance n)) ++ rest }) hleft rfl
    refine ⟨t, runs_encode hwf hp hrun, ?_⟩
    rw [sub_add_eq_sub_sub, ← hexact]
    exact ht

/-- Settles O36: RELOAD loads the total, and the ADVANCEs after it spend no more than that. -/
theorem advanceWithinLineNeverWraps : Obligations.AdvanceWithinLineNeverWraps := by
  unfold Obligations.AdvanceWithinLineNeverWraps
  intro ns s rest hc hsum hp
  have htotal : (lineTotal s.cfg).toInt = s.cfg.tLine := lineTotal_toInt s.cfg hc
  have hsum' : (ns.sum : Int) ≤ (lineTotal s.cfg).toInt := hsum.trans_eq htotal.symm
  obtain ⟨t, hrun, ht⟩ := runs_advances ns
    (afterCommand .reload { s with pending := ns.map (fun n => encode (.advance n)) ++ rest }) rest hsum' rfl
  have hbudget : t.budget.toInt = s.cfg.tLine - ns.sum := by
    rw [← htotal]
    exact ht
  refine ⟨t, runs_encode rfl hp hrun, hbudget, ?_⟩
  rw [hbudget]
  exact sub_nonneg.2 hsum

/-! ## The dispatching writes (R157, R158) -/

/-- WSTAT is its masked store and then one UPDATE (R157). -/
theorem exec_wstat (s : State) (v : Byte) :
    exec (.wstat v) s = exec .update { s with stat := (v &&& 0xF8#8) ||| (s.stat &&& 0x07#8) } := rfl

/-- WLY is the store of what `LY_WRITE_FN` gives and then one UPDATE (R158). -/
theorem exec_wly (s : State) (v : Byte) :
    exec (.wly v) s = exec .update { s with ly := lyStored s.cfg.lyWrite s.ly v } := rfl

/-- With the mode bits up to date and the default tag, WSTAT finds no mode edge, whichever enables it sets. -/
theorem countOf_mode_update_afterStore_wstat {s : State} (v : Byte) (hon : s.lcdc.getLsbD 7 = true)
    (htag : s.cfg.hblankEdgeTag = 0#2) (hmode : s.stat.extractLsb' 0 2 = modeCode (modeOf s)) :
    countOf .mode (update (afterStore (.wstat v) s)).irqlog = countOf .mode s.irqlog := by
  have hwritten : (update (afterStore (.wstat v) s)).stat.extractLsb' 0 2 = modeCode (modeOf s) :=
    update_modeField_of_enabled (afterStore (.wstat v) s) hon
  exact countOf_mode_update_of_sameMode htag (by rw [hwritten, afterStore_modeField, hmode])

/-- On an enabled display with LY at LYC, setting bit 6 opens the level gate of WSTAT's own UPDATE. -/
theorem countOf_lyc_update_afterStore_wstat {s : State} {v : Byte} (hon : s.lcdc.getLsbD 7 = true)
    (hly : s.ly = s.lyc) (hv : v.getLsbD 6 = true) :
    countOf .lyc (update (afterStore (.wstat v) s)).irqlog = countOf .lyc s.irqlog + 1 := by
  have hgate : lycGate (afterStore (.wstat v) s) = true := by simp [lycGate_afterStore_wstat, hly, hv]
  rw [countOf_lyc_update_of_enabled (afterStore (.wstat v) s) hon, hgate, afterStore_irqlog]
  rfl

/-- Settles O40: the UPDATE reads the operand's enable bits and the old mode bits from the byte that WSTAT stores. -/
theorem wstatStoresEnablesThenUpdates : Obligations.WstatStoresEnablesThenUpdates := by
  unfold Obligations.WstatStoresEnablesThenUpdates
  refine ⟨decode_opcode (.wstat 0), fun s v => ?_, fun s v hon htag hmode => ?_, fun s v hon hly hv => ?_⟩
  · have he := exec_eq (.wstat v) s
    refine ⟨_, he, (exec_wstat s v).symm.trans he, ?_⟩
    exact (afterCommand_stat_upper (.wstat v) s).trans (upperBits_storedStat s.stat v)
  · exact ⟨_, exec_eq .., countOf_mode_update_afterStore_wstat v hon htag hmode⟩
  · exact ⟨_, exec_eq .., countOf_lyc_update_afterStore_wstat hon hly hv⟩

/-- Settles O42: UPDATE keeps the stored LY on the enabled path and stores 0 on the other; a function's whole table is
an exception list. -/
theorem wlyStoresThenUpdates : Obligations.WlyStoresThenUpdates := by
  unfold Obligations.WlyStoresThenUpdates
  refine ⟨decode_opcode (.wly 0), fun s v => ?_, fun f => ⟨Laws.tableOf f, Laws.lyStored_tableOf f⟩⟩
  have he := exec_eq (.wly v) s
  exact ⟨_, he, (exec_wly s v).symm.trans he, update_ly_of_enabled (afterStore (.wly v) s),
    update_ly_of_disabled (afterStore (.wly v) s)⟩

/-! ## The commands without an UPDATE (R151, R154 to R156, R159) -/

/-- Settles O44: a command without an UPDATE is its own store, and no store touches the log. -/
theorem onlyUpdatesRequest : Obligations.OnlyUpdatesRequest := by
  unfold Obligations.OnlyUpdatesRequest
  intro i s t he hi
  rw [exec_eq] at he
  cases he
  exact afterCommand_irqlog_of_noUpdate hi s

theorem exec_setly (s : State) (v : Byte) : exec (.setly v) s = .next { s with ly := v, ret := none } := rfl

theorem exec_wlcdc (s : State) (v : Byte) : exec (.wlcdc v) s = .next { s with lcdc := v, ret := none } := rfl

theorem exec_wlyc (s : State) (v : Byte) : exec (.wlyc v) s = .next { s with lyc := v, ret := none } := rfl

theorem exec_rd (s : State) (r : Reg) : exec (.rd r) s = .next { s with ret := some (.byte (s.readReg r)) } := rfl

/-- Settles O37: SETLY is one raw store. -/
theorem setlyStoresLineCounter : Obligations.SetlyStoresLineCounter := by
  unfold Obligations.SetlyStoresLineCounter
  exact ⟨decode_opcode (.setly 0), exec_setly⟩

/-- Settles O38: WLCDC is one store, and the next UPDATE and QEN read bit 7 of the stored byte. -/
theorem wlcdcStoresControl : Obligations.WlcdcStoresControl := by
  unfold Obligations.WlcdcStoresControl
  refine ⟨decode_opcode (.wlcdc 0), exec_wlcdc, fun s v hv => ?_, fun s v => ?_⟩
  · exact ⟨_, _, exec_wlcdc s v, rfl, rfl, rfl, exec_update_of_disabled hv, rfl⟩
  · refine ⟨_, _, exec_wlcdc s v, exec_eq .., ?_⟩
    rw [afterCommand_qen]

/-- Settles O39: WLYC is one store. -/
theorem wlycStoresCompare : Obligations.WlycStoresCompare := by
  unfold Obligations.WlycStoresCompare
  exact ⟨decode_opcode (.wlyc 0), exec_wlyc⟩

/-- Settles O43: RD returns the selected register's byte, which is what MemRead gives at the register's address. -/
theorem rdReturnsRegister : Obligations.RdReturnsRegister := by
  unfold Obligations.RdReturnsRegister
  refine ⟨fun d => ⟨decode_rd (r := .lcdc), decode_rd (r := .stat), decode_rd (r := .ly), decode_rd (r := .lyc)⟩,
    fun s => ⟨exec_rd s .lcdc, exec_rd s .stat, exec_rd s .ly, exec_rd s .lyc⟩, fun s r hc => ?_⟩
  exact ⟨_, s.readReg r, exec_rd s r, memRead_addrOf s hc r, rfl⟩

end Sys2Proof.Machine
end

section
/-! SUPPORT. Every command, step and run has a next state (spec/60_exceptions.md rules R180, R181), and a scan that is
frozen stays so over any number of UPDATEs (rule R192). -/

namespace Sys2Proof.Machine

/-! ## A next state for every step and run -/

/-- Each of the three kinds of step has a next state: an empty stream, a command, a reserved word (R83, R181, R210). -/
theorem exists_step (s : State) : ∃ t, step s = .next t := by
  cases hp : s.pending with
  | nil => exact ⟨s, step_of_nil hp⟩
  | cons w rest =>
    cases hd : decode w with
    | instr i => exact ⟨_, (step_of_instr hp hd).trans (exec_eq ..)⟩
    | reserved op => exact ⟨_, step_of_reserved hp hd⟩

theorem exists_runs (k : Nat) (s : State) : ∃ t, Runs k s t := by
  induction k generalizing s with
  | zero => exact ⟨s, (runs_zero s s).2 rfl⟩
  | succ k ih =>
    obtain ⟨u, hstep⟩ := exists_step s
    obtain ⟨t, hrun⟩ := ih u
    exact ⟨t, (runs_succ k s t).2 ⟨u, hstep, hrun⟩⟩

/-- Settles O11: every command is one equation, every kind of step has a next state, and so by induction has every
run. -/
theorem everyStepHasNextState : Obligations.EveryStepHasNextState := by
  unfold Obligations.EveryStepHasNextState
  exact ⟨exists_step, exists_runs, fun i s => ⟨afterCommand i s, exec_eq i s⟩⟩

/-! ## UPDATEs on a disabled display -/

/-- The first UPDATE freezes the scan, and the display-off path leaves what it has written once as it is. -/
theorem runs_updates_of_disabled (k : Nat) (s : State) (rest : List CmdWord) (hoff : s.lcdc.getLsbD 7 = false)
    (hp : s.pending = List.replicate (k + 1) (encode .update) ++ rest) :
    Runs (k + 1) s { displayOffResult s with pending := rest } := by
  induction k generalizing s with
  | zero =>
    refine runs_encode rfl hp ((runs_zero ..).2 ?_)
    exact (afterCommand_update_of_disabled (s := { s with pending := rest }) hoff).symm
  | succ k ih =>
    have hlater := ih (displayOffResult { s with pending := List.replicate (k + 1) (encode .update) ++ rest }) hoff rfl
    rw [displayOffResult_displayOffResult] at hlater
    refine runs_encode rfl hp ?_
    rw [afterCommand_update_of_disabled]
    · exact hlater
    · exact hoff

/-- Settles O30: the state that the UPDATEs end in is the display-off path's result, with the rest of the stream. -/
theorem disabledScanStaysFrozen : Obligations.DisabledScanStaysFrozen := by
  unfold Obligations.DisabledScanStaysFrozen
  exact runs_updates_of_disabled

end Sys2Proof.Machine
end

section
/-! SUPPORT. The block without a command (spec/70_reset_and_hazards.md rule R210), and a Transfer window that the budget
passes through between two UPDATEs (rule R222). -/

namespace Sys2Proof.Machine

/-- Settles O7: an empty stream is the first of the three kinds of step. -/
theorem noCommandNoChange : Obligations.NoCommandNoChange := by
  unfold Obligations.NoCommandNoChange
  exact fun _ => step_of_nil

/-- The state after an ADVANCE (R153). -/
def advanced (s : State) (n : Nat) : State := { s with budget := budgetAfter s.budget n, ret := none }

theorem exec_advance_eq_advanced (s : State) (n : Nat) : exec (.advance n) s = .next (advanced s n) := exec_eq ..

/-- An ADVANCE that carries the budget below `T_TRANSFER` without wrapping carries a visible line into H-Blank, whatever
window it starts from. -/
theorem modeOf_advanced_hblank {s : State} {n : Nat} (hc : s.cfg.Ok) (hly : s.ly.toNat < 144)
    (hlow : s.budget.toInt - n < s.cfg.tTransfer) (hfits : -(2 ^ 31) ≤ s.budget.toInt - n) :
    modeOf (advanced s n) = .hblank :=
  muxMode_hblank hc hly ((budgetAfter_toInt s.budget n hfits).trans_lt hlow)

/-- Under the default tag the H-Blank gate tests only that the previous mode was not H-Blank (R122): from OAM-search it
opens as well as from Transfer. -/
theorem modeGate_of_hblank_entered {s : State} (htag : s.cfg.hblankEdgeTag = 0#2) (hmode : modeOf s = .hblank)
    (hen : s.stat.getLsbD 3 = true) (hprev : s.stat.extractLsb' 0 2 ≠ 0b00#2) : modeGate s = true := by
  rw [modeGate_eq_true_iff, edgeTag_of_default htag, hmode]
  exact ⟨hen, hprev.symm⟩

/-- Settles O33: the first UPDATE leaves the previous mode 2, the ADVANCE leaves STAT as it is, and so the second UPDATE
finds H-Blank entered. -/
theorem skippedTransferIsStillAnEdge : Obligations.SkippedTransferIsStillAnEdge := by
  unfold Obligations.SkippedTransferIsStillAnEdge
  intro s n hc htag hon hly hoam hlow hfits hen
  have hprev : (update s).stat.extractLsb' 0 2 = 0b10#2 :=
    (update_modeField_of_enabled s hon).trans (congrArg modeCode (muxMode_oamSearch s.cfg hly hoam))
  have hmode : modeOf (advanced (update s) n) = .hblank := by
    apply modeOf_advanced_hblank
    · rwa [update_cfg]
    · rwa [update_ly_of_enabled s hon]
    · rwa [update_budget_of_enabled s hon, update_cfg]
    · rwa [update_budget_of_enabled s hon]
  have hgate : modeGate (advanced (update s) n) = true := by
    apply modeGate_of_hblank_entered _ hmode
    · exact (bit_of_upperBits _ _ (update_stat_upper s) 3 le_rfl).trans hen
    · exact ne_of_eq_of_ne hprev (by decide)
    · exact (congrArg Params.hblankEdgeTag (update_cfg s)).trans htag
  have hon' : (advanced (update s) n).lcdc.getLsbD 7 = true := (congrArg (·.getLsbD 7) (update_lcdc s)).trans hon
  refine ⟨_, _, _, exec_update s, exec_advance_eq_advanced _ n, exec_update (advanced (update s) n), hprev, ?_, ?_⟩
  · exact (update_modeField_of_enabled _ hon').trans (congrArg modeCode hmode)
  · rw [returning_irqlog, countOf_mode_update_of_enabled _ hon', hgate]
    rfl

end Sys2Proof.Machine
end
